-- ==== Sys2Proof/Word.lean ====
section
/-! DEFINITION. The word types: the 16-bit stored word of `RE`, `IM` and `TW`, and the 10-bit element index. -/

namespace Sys2Proof

/-- One stored word: 16 bits, two's complement, Q(0,15) (R90, R92). Its `int16` value is `w.toInt`, its unsigned image
`u16` is `w.toNat` (R9). -/
abbrev Word := BitVec 16

/-- An element index of `RE`, `IM` or `BR`, and a word of `BR` (R61, R93). -/
abbrev Index := BitVec 10

end Sys2Proof
end

