-- ==== Sys2Proof/Config.lean ====
section
/-! DEFINITION. The parameters of the block (R6, R7), fixed for the machine, and the one free value of the model: the
power-up contents of the sample memories (R75). -/

namespace Sys2Proof

/-- The two sample memories a host access or an engine access can name (R12, R60). -/
inductive Channel where
  /-- `RE`, the real channel. -/
  | re
  /-- `IM`, the imaginary channel. -/
  | im
  deriving DecidableEq, Repr

/-- The admitted values of the parameter `HALVE_MODE` (R6, R123). -/
inductive HalveMode where
  /-- Toward zero. -/
  | trunc
  /-- Toward minus infinity. -/
  | floor
  deriving DecidableEq, Repr

namespace Config

/-- `LOG2N`: log2 of the transform length, and the number of stages. -/
abbrev log2N : Nat := 10

/-- `N`: samples per channel. -/
abbrev n : Nat := 2 ^ log2N

/-- `FRAC`: the value of one unit in the last place is `1 / 2 ^ FRAC`. -/
abbrev frac : Nat := 15

/-- `ROUND_BIAS`: half the fractional unit. -/
abbrev roundBias : Int := 16384

/-- `SAFE_MIN`: the smallest sample that does not make a shift stage. -/
abbrev safeMin : Int := -16384

/-- `SAFE_MAX`: the largest sample that does not make a shift stage. -/
abbrev safeMax : Int := 16383

/-- `TW_LEN`: entries of the twiddle ROM. -/
abbrev twLen : Nat := 769

/-- `TW_COS_OFFSET`: turns a sine lookup into a cosine lookup. -/
abbrev twCosOffset : Nat := 256

/-- `BR_LEN`: entries of the bit-reversal ROM. -/
abbrev brLen : Nat := 1024

/-- `SCALE_MAX`: the largest value of the scale accumulator. -/
abbrev scaleMax : Nat := log2N

/-- `HALVE_MODE` of this hardware (D5; log 15). The machine takes the mode from its field `halveMode`, which holds this
value after reset. -/
def halveMode : HalveMode := .trunc

/-- FREE VALUE (log 5). What a word of `RE` or `IM` holds before anything has written it: "an arbitrary but fixed
`int16` value" (R75). It has no body, so nothing can be proved of it but that it is the same on every read. -/
opaque powerUpWord : Channel → Index → Word

end Config
end Sys2Proof
end

