-- ==== Sys2Proof/Machine/State.lean ====
section
/-! DEFINITION. The state of one engine instance (R20 to R29), the inputs the host presents (R35, R106), the reasons a
step may be refused, and the state after reset (R34, R291). -/

namespace Sys2Proof.Machine

/-- `PHASE`: the sequencer's major state, exactly the five named values (R28; log 7). -/
inductive Phase where
  /-- `IDLE`: after reset, no transform has run. -/
  | idle
  /-- `PERM`: bit-reversal permutation in progress. -/
  | perm
  /-- `SCAN`: range scan of the current stage in progress. -/
  | scan
  /-- `BFLY`: butterfly pass of the current stage in progress. -/
  | bfly
  /-- `DONE`: a transform has completed and its results are readable. -/
  | done
  deriving DecidableEq, Repr

/-- One sample memory, as (index, word) pairs in canonical form (`Memory.wf`; log 6). An index that is not listed holds
`Config.powerUpWord` (R75; log 5). -/
abbrev Memory := List (Nat × Word)

/-- The canonical form of the memory of channel `c`: indices strictly rising and below 1024 (R61), and no entry equal to
what an unlisted index reads as. -/
abbrev Memory.wf (c : Channel) (m : Memory) : Prop :=
  m.Pairwise (fun a b => a.1 < b.1) ∧
    ∀ e ∈ m, e.1 < 1024 ∧ e.2 ≠ Config.powerUpWord c (BitVec.ofNat 10 e.1)

/-- The input pins of one micro-step, as the host drives them (R35, R106). -/
structure HostInput where
  /-- `reset` (R290). -/
  reset : Bool
  /-- `start` (R222). -/
  start : Bool
  /-- `inverse`, sampled with `start` (R95). -/
  inverse : Bool
  /-- `hvalid`: the access word `hacc` is valid (R106). -/
  hvalid : Bool
  /-- `hacc[27:0]`: the host access word (R96). -/
  hacc : BitVec 28
  deriving DecidableEq, Repr

/-- All input pins 0: the host presents nothing. -/
def HostInput.quiet : HostInput :=
  { reset := false, start := false, inverse := false, hvalid := false, hacc := 0#28 }

/-- The state of the block: R20's complete list, then three fields that are the model's own: the read-data output
`hrdata` (log 4), the input pins `host` (log 2), and the parameter `HALVE_MODE`, which no operation writes (log 15). -/
structure State where
  /-- `RE` (R21). -/
  re : Memory
  /-- `IM` (R21). -/
  im : Memory
  /-- `TW`, a ROM (R22; log 16). -/
  tw : Vector Word 769
  /-- `BR`, a ROM (R23). -/
  br : Vector Index 1024
  /-- `SCALE` (R24). -/
  scale : BitVec 4
  /-- `INV`: false forward, true inverse (R25). -/
  inv : Bool
  /-- `SHIFT` (R26). -/
  shift : Bool
  /-- `PHASE` (R28). -/
  phase : Phase
  /-- `IDX` (R29). -/
  idx : Index
  /-- `STAGE` (R29). -/
  stage : BitVec 4
  /-- `STEP` (R29). -/
  step : BitVec 11
  /-- `G` (R29). -/
  g : Index
  /-- `I` (R29). -/
  i : Index
  /-- The read data returned in the last micro-step (R231), none if it performed no read. The model's own field. -/
  hrdata : Option Word
  /-- The input pins of this and of the coming micro-steps; past the end of the list all pins are 0. The model's own
  field. -/
  host : List HostInput
  /-- `HALVE_MODE`, "a parameter of the model so that a claim can be proved for both" values (R6, R123). The model's own
  field: a constant of the block, so a statement about every state holds in either mode. -/
  halveMode : HalveMode
  deriving DecidableEq, Repr

/-- The block raises no fault, trap or abort, "in any state, for any input" (R260), so no reason exists: nobody raises
one (log 21). -/
inductive Fault where
  deriving DecidableEq, Repr

/-- Why the model gives a state no step. Each is safe: nothing can be proved of an execution that would need it. -/
inductive Refusal where
  /-- Raised by an arm of `exec` whose instruction has no meaning yet. Safe. No arm raises it. -/
  | notModelled (mnemonic : String)
  /-- Raised by `HRD` and `HWR` while `busy` = 1: "A model must give such an access no step (refuse it), never a value"
  (R69, U3; log 11). Safe. -/
  | hostAccessWhileBusy
  /-- Raised by every engine operation in a state with `SCALE` 11 to 15, `STAGE` 11 to 15, or a `STEP` that is no power
  of two up to 1024: unreachable, "it must not be given a value" (R99, U5; log 8). Safe. -/
  | undefinedRegisterValue
  /-- Raised by `BFLY.STEP` in an unreachable state whose `STAGE`, `STEP`, `G` and `I` name a twiddle phase outside 0 to
  511 or a sample index above 1023: nothing is there to read (R61, R99, R165; log 10). Safe. -/
  | indexNamesNoWord
  /-- Raised by a micro-operation executed while `PHASE` selects another one (R97); `step` never does this (log 9).
  Safe. -/
  | notSelectedByPhase
  /-- Raised by `step` for an operation word that selects no operation, a reserved `PHASE` code (R99, R228). `step` never
  meets one, because `PHASE` has only its five named values (log 7). Safe. -/
  | reservedPhaseCode
  deriving DecidableEq, Repr

/-- What an operation or a micro-step answers. -/
abbrev Answer := Host.Outcome State Fault Refusal

/-- The state right after reset at power-up (R34, R291): the registers at the values of the table, the ROMs with their
constant contents, nothing written in `RE` and `IM`, no input presented, and the hardware's `HALVE_MODE`. -/
def State.reset : State :=
  { re := [], im := [], tw := twiddleRom, br := bitReversalRom,
    scale := 0#4, inv := false, shift := false, phase := .idle,
    idx := 0#10, stage := 0#4, step := 1#11, g := 0#10, i := 0#10,
    hrdata := none, host := [], halveMode := Config.halveMode }

end Sys2Proof.Machine
end

