-- ==== Sys2Proof/Machine/Arith.lean ====
section
/-! DEFINITION. The scalar arithmetic of the datapath: the unit `fixed_point_multiplier_with_rounding` and the halving,
negation, addition and subtraction (R9, R10, R120 to R126). Operands are read as integers, the result is computed
exactly, and it is narrowed once at the end. None of these sets a flag or raises anything. -/

namespace Sys2Proof.Machine

/-- `wrap16(x)`: the `int16` value with the same low 16 bits (R9). -/
def wrap16 (x : Int) : Word := BitVec.ofInt 16 x

/-- `floor_div(x, d)`: the quotient rounded toward minus infinity (R10). -/
def floorDiv (x d : Int) : Int := x.fdiv d

/-- `trunc_div(x, d)`: the quotient rounded toward zero (R10). -/
def truncDiv (x d : Int) : Int := x.tdiv d

/-- `FIX_MPY(a, b)`: round half up, then keep the low 16 bits (R120; `MPY_NARROW` = `WRAP`, D7). -/
def fixMpy (a b : Word) : Word :=
  wrap16 (floorDiv (a.toInt * b.toInt + Config.roundBias) (2 ^ Config.frac))

/-- `HALVE(x)` in either admitted mode (R123). -/
def halve (mode : HalveMode) (x : Word) : Word :=
  match mode with
  | .trunc => wrap16 (truncDiv x.toInt 2)
  | .floor => wrap16 (floorDiv x.toInt 2)

/-- `NEG16(x)` (R124). -/
def neg16 (x : Word) : Word := wrap16 (-x.toInt)

/-- `ADD16(x, y)` (R125). -/
def add16 (x y : Word) : Word := wrap16 (x.toInt + y.toInt)

/-- `SUB16(x, y)` (R125). -/
def sub16 (x y : Word) : Word := wrap16 (x.toInt - y.toInt)

end Sys2Proof.Machine
end

