-- ==== Sys2Proof/Machine/Flags.lean ====
section
/-! DEFINITION. The block's one condition flag, `SHIFT`, and the test that sets it (R26, R127, R225). No arithmetic
operation sets a flag. -/

namespace Sys2Proof.Machine

/-- `OOR(v)`: the word lies outside the safe sub-range, by signed comparison (R127). -/
def oor (v : Word) : Bool := v.toInt < Config.safeMin || Config.safeMax < v.toInt

/-- The new value of `SHIFT` in `SCAN.STEP`: a sticky OR of the tests of both components (R225). -/
def stickyShift (shift : Bool) (re im : Word) : Bool := shift || oor re || oor im

end Sys2Proof.Machine
end

