-- ==== Sys2Proof/Machine/Operands.lean ====
section
/-! DEFINITION. Index assembly: how every index of `TW`, `RE` and `IM` is put together from counter bits (R102, R103,
R165, R180), and the codes of `PHASE` (R97). `BITREV` (R101) stands with the ROM it fills, in `Rom.lean`. -/

namespace Sys2Proof.Machine

/-- The code `PHASE` holds for each phase (R97). -/
def Phase.code : Phase → BitVec 3
  | .idle => 0b000#3
  | .perm => 0b001#3
  | .scan => 0b010#3
  | .bfly => 0b011#3
  | .done => 0b100#3

/-- The phase a code names; none for the reserved codes (R97, R99). -/
def Phase.ofCode (w : BitVec 3) : Option Phase :=
  match w.toNat with
  | 0 => some .idle
  | 1 => some .perm
  | 2 => some .scan
  | 3 => some .bfly
  | 4 => some .done
  | _ => none

/-- `STEP` as a function of the stage index: `2^(10 - STAGE)` (R180, R214). -/
def stepOfStage (stage : Nat) : Nat := 2 ^ (10 - stage)

/-- The twiddle angle index `jp = g << (STAGE - 1)`, a 9-bit value (R102). None outside the operand range of `TWIDDLE`,
`stage` 1 to 10 and `g` below `2^(10 - stage)` (R181): no phase index is defined there (R165; log 10). -/
def twiddleIndex (g : Index) (stage : BitVec 4) : Option (BitVec 9) :=
  if 1 ≤ stage.toNat ∧ stage.toNat ≤ 10 ∧ g.toNat < stepOfStage stage.toNat then
    some (BitVec.ofNat 9 (g.toNat * 2 ^ (stage.toNat - 1)))
  else none

/-- The far index `j = i + STEP` of a butterfly (R103, R180). None when no such sample exists (R61; log 10). -/
def farIndex (i : Index) (step : BitVec 11) : Option Index :=
  if i.toNat + step.toNat < Config.n then some (BitVec.ofNat 10 (i.toNat + step.toNat)) else none

/-- `TW.SIN(k) = TW[k]` (R165). -/
def twSin (tw : Vector Word 769) (k : BitVec 9) : Word := tw[k.toNat]'(by have := k.isLt; omega)

/-- `TW.COS(k) = TW[k + 256]` (R162, R165). -/
def twCos (tw : Vector Word 769) (k : BitVec 9) : Word :=
  tw[k.toNat + Config.twCosOffset]'(by have := k.isLt; simp only [Config.twCosOffset]; omega)

/-- The lookup `BR[k]` (R140). -/
def brRead (br : Vector Index 1024) (k : Index) : Index := br[k.toNat]'(by have := k.isLt; omega)

end Sys2Proof.Machine
end

