-- ==== Sys2Proof/Machine/Ops.lean ====
section
/-! DEFINITION. The named operations over memory and registers: one-word accesses (R12, R64), the outputs (R27), the
guards of an operation, `START` (R222), `reset` (R290), and the bodies of the micro-operations: `PERM.SWAP` (R143),
`TWIDDLE` (R181), `BFLY` (R182) and the advance of the counters (R224 to R226).

The block takes no exception and returns from none (R264, R265): there is no such operation here. -/

namespace Sys2Proof.Machine

/-! ## One sample memory -/

/-- The word listed at index `k`, if one is. -/
def Memory.find : Memory → Nat → Option Word
  | [], _ => none
  | (a, x) :: rest, k => if a = k then some x else Memory.find rest k

/-- The list with the entry (k, v) put in its place. -/
def Memory.insertCell : Memory → Nat → Word → Memory
  | [], k, v => [(k, v)]
  | (a, x) :: rest, k, v =>
    if k < a then (k, v) :: (a, x) :: rest
    else if k = a then (k, v) :: rest
    else (a, x) :: Memory.insertCell rest k v

/-- The list without the entry at index `k`. -/
def Memory.eraseCell : Memory → Nat → Memory
  | [], _ => []
  | (a, x) :: rest, k => if a = k then rest else (a, x) :: Memory.eraseCell rest k

/-- Reading one word of channel `c`: the last word written there, and before any write the word's power-up contents
(R66, R75). -/
def Memory.read (c : Channel) (m : Memory) (k : Index) : Word :=
  match Memory.find m k.toNat with
  | some v => v
  | none => Config.powerUpWord c k

/-- Writing one word of channel `c`, keeping the canonical form: a word equal to the power-up contents is not listed. -/
def Memory.write (c : Channel) (m : Memory) (k : Index) (v : Word) : Memory :=
  if v = Config.powerUpWord c k then Memory.eraseCell m k.toNat else Memory.insertCell m k.toNat v

/-! ## The sample memories of a state -/

/-- The memory of a channel. -/
def State.mem (c : Channel) (s : State) : Memory :=
  match c with
  | .re => s.re
  | .im => s.im

/-- `MemRead(S, k)` for `S` = `RE` or `IM` (R12). -/
def State.readSample (c : Channel) (k : Index) (s : State) : Word := Memory.read c (s.mem c) k

/-- `MemWrite(S, k, v)` for `S` = `RE` or `IM` (R12). -/
def State.writeSample (c : Channel) (k : Index) (v : Word) (s : State) : State :=
  match c with
  | .re => { s with re := Memory.write .re s.re k v }
  | .im => { s with im := Memory.write .im s.im k v }

/-! ## Outputs and inputs -/

/-- Output `busy` (R27). -/
def State.busy (s : State) : Bool :=
  match s.phase with
  | .idle => false
  | .perm => true
  | .scan => true
  | .bfly => true
  | .done => false

/-- Output `done` (R27). -/
def State.doneOut (s : State) : Bool :=
  match s.phase with
  | .idle => false
  | .perm => false
  | .scan => false
  | .bfly => false
  | .done => true

/-- Output `scale[3:0]` (R27, R94). -/
def State.scaleOut (s : State) : BitVec 4 := s.scale

/-- The input pins of this micro-step; all 0 when the host presents nothing (log 2). -/
def State.pins (s : State) : HostInput := s.host.headD HostInput.quiet

/-- The micro-step is over: its input pins are gone and the next ones stand. -/
def State.popInput (s : State) : State := { s with host := s.host.tail }

/-- The read data returned in this micro-step (R231). -/
def State.setHrdata (v : Option Word) (s : State) : State := { s with hrdata := v }

/-! ## Guards -/

/-- `STEP` is one of 1, 2, 4, ..., 1024 (R29, U5). -/
def stepDefined (w : BitVec 11) : Bool := w != 0#11 && (w &&& (w - 1#11)) == 0#11

/-- `SCALE`, `STAGE` and `STEP` hold values the spec gives a meaning (R99, U5; log 8). -/
def State.registersDefined (s : State) : Bool :=
  decide (s.scale.toNat ≤ Config.scaleMax) && decide (s.stage.toNat ≤ Config.log2N) && stepDefined s.step

/-- An engine operation: the engine has no step where a register holds a value without meaning (R99). -/
def engineOp (s : State) (k : State → Answer) : Answer :=
  if s.registersDefined then k s else .refused .undefinedRegisterValue

/-- A micro-operation: it runs in the phase that selects it (R97). -/
def microOp (p : Phase) (s : State) (k : State → Answer) : Answer :=
  if s.phase = p then engineOp s k else .refused .notSelectedByPhase

/-- A host access to the sample memories: it has a meaning only while `busy` = 0 (R69). -/
def hostOp (s : State) (k : State → Answer) : Answer :=
  if s.busy then .refused .hostAccessWhileBusy else k s

/-- One operation after another in the same micro-step. -/
def andThen (o : Answer) (k : State → Answer) : Answer :=
  match o with
  | .next s => k s
  | .fault r => .fault r
  | .refused r => .refused r

/-! ## `START` and `reset` -/

/-- `START` (R222): latches the direction, clears `SCALE` and `SHIFT`, and arms the permutation. -/
def State.startTransform (inverse : Bool) (s : State) : State :=
  { s with
    inv := inverse, scale := 0#4, shift := false,
    idx := 0#10, stage := 10#4, step := 1#11, g := 0#10, i := 0#10, phase := .perm }

/-- A command presented with `start` = 1 (R95): performed in `IDLE` and `DONE`, and ignored while busy, where "it changes
no state and is not remembered" (R233; log 12). -/
def command (inverse : Bool) (s : State) : Answer :=
  if s.busy then .next s else engineOp s fun s => .next (s.startTransform inverse)

/-- The micro-operation of `IDLE` and of `DONE`: "if `start = 1`, perform `START`; otherwise no state changes" (R223,
R227). -/
def hold (p : Phase) (s : State) : Answer :=
  microOp p s fun s => .next (if s.pins.start then s.startTransform s.pins.inverse else s)

/-- `reset` (R290 to R292): every register takes its reset value; `RE` and `IM` keep what they hold (log 20). -/
def State.applyReset (s : State) : State :=
  { s with
    scale := 0#4, inv := false, shift := false, phase := .idle,
    idx := 0#10, stage := 0#4, step := 1#11, g := 0#10, i := 0#10, hrdata := none }

/-! ## The permutation -/

/-- `PERM.SWAP(k)` (R143): all four reads, then the four writes, when `BR[k]` is greater than `k`; else nothing. -/
def permSwap (k : Index) (s : State) : State :=
  let r := brRead s.br k
  if k < r then
    let a := s.readSample .re k
    let b := s.readSample .re r
    let c := s.readSample .im k
    let d := s.readSample .im r
    (((s.writeSample .re k b).writeSample .re r a).writeSample .im k d).writeSample .im r c
  else s

/-- The advance of `PERM.STEP` (R224). -/
def permAdvance (s : State) : State :=
  if s.idx.toNat < 1023 then { s with idx := s.idx + 1#10 }
  else { s with idx := 0#10, shift := false, stage := 10#4, step := 1#11, phase := .scan }

/-! ## The range scan -/

/-- What `SHIFT` becomes in `SCAN.STEP` (R225). -/
def State.scannedShift (s : State) : Bool :=
  stickyShift s.shift (s.readSample .re s.idx) (s.readSample .im s.idx)

/-- The writes of `SCAN.STEP` (R225, R212): `SHIFT`, the next index, and on the last index the count of shift stages and
the start of the butterfly pass. -/
def scanAdvance (s : State) : State :=
  let sh := s.scannedShift
  if s.idx.toNat < 1023 then { s with shift := sh, idx := s.idx + 1#10 }
  else
    { s with
      shift := sh, scale := if sh then s.scale + 1#4 else s.scale,
      idx := 0#10, g := 0#10, i := 0#10, phase := .bfly }

/-! ## The butterfly pass -/

/-- `TWIDDLE` for a phase index: cosine and signed sine, negated for a forward transform, both halved on a shift stage,
in that order (R181, D25). -/
def twiddleWeights (mode : HalveMode) (tw : Vector Word 769) (jp : BitVec 9) (inv shift : Bool) : Word × Word :=
  let wr := twCos tw jp
  let wi := if inv then twSin tw jp else neg16 (twSin tw jp)
  if shift then (halve mode wr, halve mode wi) else (wr, wi)

/-- `TWIDDLE(g, stage, inv, shift)` (R181); none outside its operand range. -/
def twiddle (mode : HalveMode) (tw : Vector Word 769) (g : Index) (stage : BitVec 4) (inv shift : Bool) :
    Option (Word × Word) :=
  (twiddleIndex g stage).map fun jp => twiddleWeights mode tw jp inv shift

/-- The complex product of the weight and the far operand: real part, then imaginary part (R182). -/
def complexProduct (wr wi fr fi : Word) : Word × Word :=
  (sub16 (fixMpy wr fr) (fixMpy wi fi), add16 (fixMpy wr fi) (fixMpy wi fr))

/-- The near operand as it enters the combine step: halved on a shift stage (R182). -/
def passThrough (mode : HalveMode) (shift : Bool) (q : Word) : Word := if shift then halve mode q else q

/-- `BFLY(i, j, wr, wi, shift)` (R182): all four reads, then the four writes, far = near - product and
near = near + product. -/
def bfly (mode : HalveMode) (i j : Index) (wr wi : Word) (shift : Bool) (s : State) : State :=
  let t := complexProduct wr wi (s.readSample .re j) (s.readSample .im j)
  let qr := passThrough mode shift (s.readSample .re i)
  let qi := passThrough mode shift (s.readSample .im i)
  (((s.writeSample .re j (sub16 qr t.1)).writeSample .im j (sub16 qi t.2)).writeSample .re i
    (add16 qr t.1)).writeSample .im i (add16 qi t.2)

/-- The advance of `BFLY.STEP` (R226): the next butterfly of the group, the next group, the next stage, or `DONE`. -/
def bflyAdvance (s : State) : State :=
  if s.i.toNat + 2 * s.step.toNat < 1024 then
    { s with i := BitVec.ofNat 10 (s.i.toNat + 2 * s.step.toNat) }
  else if s.g.toNat + 1 < s.step.toNat then
    { s with g := s.g + 1#10, i := s.g + 1#10 }
  else if s.stage - 1#4 = 0#4 then
    { s with step := BitVec.ofNat 11 (2 * s.step.toNat), stage := 0#4, g := 0#10, i := 0#10, phase := .done }
  else
    { s with
      step := BitVec.ofNat 11 (2 * s.step.toNat), stage := s.stage - 1#4, g := 0#10, i := 0#10,
      idx := 0#10, shift := false, phase := .scan }

end Sys2Proof.Machine
end

