-- ==== Sys2Proof/Machine/Command.lean ====
section
/-! DEFINITION. Format `CMD`: the two commands. Each starts its transform; the micro-steps that follow carry it out
(R222, R229; log 1). -/

namespace Sys2Proof.Machine

/-- `FFT.FWD` (R217): the forward command, `inverse` = 0. -/
def execFftFwd (s : State) : Answer := command false s

/-- `FFT.INV` (R218): the inverse command, `inverse` = 1. -/
def execFftInv (s : State) : Answer := command true s

end Sys2Proof.Machine
end

