-- ==== Sys2Proof/Machine/HostAccess.lean ====
section
/-! DEFINITION. Format `HACC`: the four host accesses to the sample memories (R230, R231). While `busy` = 1 none of them
has a meaning (R69). -/

namespace Sys2Proof.Machine

/-- `HRD.RE k` (R231): returns `RE[k]` on `hrdata`; changes no state. -/
def execHrdRe (k : Index) (s : State) : Answer :=
  hostOp s fun s => .next (s.setHrdata (some (s.readSample .re k)))

/-- `HRD.IM k` (R231): returns `IM[k]` on `hrdata`; changes no state. -/
def execHrdIm (k : Index) (s : State) : Answer :=
  hostOp s fun s => .next (s.setHrdata (some (s.readSample .im k)))

/-- `HWR.RE k, v` (R230): writes `RE[k]`; no other state changes. -/
def execHwrRe (k : Index) (v : Word) (s : State) : Answer :=
  hostOp s fun s => .next (s.writeSample .re k v)

/-- `HWR.IM k, v` (R230): writes `IM[k]`; no other state changes. -/
def execHwrIm (k : Index) (v : Word) (s : State) : Answer :=
  hostOp s fun s => .next (s.writeSample .im k v)

end Sys2Proof.Machine
end

