-- ==== Sys2Proof/Machine/Sequencer.lean ====
section
/-! DEFINITION. Format `UOP`: the five micro-operations, one per phase (R223 to R227). -/

namespace Sys2Proof.Machine

/-- `IDLE.HOLD` (R223). -/
def execIdleHold (s : State) : Answer := hold .idle s

/-- `PERM.STEP` (R224): one swap, then the advance. -/
def execPermStep (s : State) : Answer :=
  microOp .perm s fun s => .next (permAdvance (permSwap s.idx s))

/-- `SCAN.STEP` (R225): one index of the range scan. -/
def execScanStep (s : State) : Answer :=
  microOp .scan s fun s => .next (scanAdvance s)

/-- `BFLY.STEP` (R226): one butterfly, in the block's `HALVE_MODE` (R123), then the advance. -/
def execBflyStep (s : State) : Answer :=
  microOp .bfly s fun s =>
    match twiddle s.halveMode s.tw s.g s.stage s.inv s.shift, farIndex s.i s.step with
    | some (wr, wi), some j => .next (bflyAdvance (bfly s.halveMode s.i j wr wi s.shift s))
    | _, _ => .refused .indexNamesNoWord

/-- `DONE.HOLD` (R227). -/
def execDoneHold (s : State) : Answer := hold .done s

end Sys2Proof.Machine
end

