-- ==== Sys2Proof/Syntax.lean ====
section
/-! DEFINITION. The eleven encoded operations of `spec/opcode_table.json`, and the words that select them on the three
ports the spec gives: `CMD`, `HACC` and `UOP` (R98). -/

namespace Sys2Proof

/-- One constructor per row of the opcode table. A read carries no `wdata`: "the engine ignores it" (R96; log 17). -/
inductive Instr where
  /-- `FFT.FWD`: the forward transform command (R217). -/
  | fftFwd
  /-- `FFT.INV`: the inverse transform command (R218). -/
  | fftInv
  /-- `HRD.RE k`: host read of `RE[k]` (R231). -/
  | hrdRe (k : Index)
  /-- `HRD.IM k`: host read of `IM[k]` (R231). -/
  | hrdIm (k : Index)
  /-- `HWR.RE k, v`: host write of `RE[k]` (R230). -/
  | hwrRe (k : Index) (v : Word)
  /-- `HWR.IM k, v`: host write of `IM[k]` (R230). -/
  | hwrIm (k : Index) (v : Word)
  /-- `IDLE.HOLD`: micro-operation of phase `IDLE` (R223). -/
  | idleHold
  /-- `PERM.STEP`: micro-operation of phase `PERM` (R224). -/
  | permStep
  /-- `SCAN.STEP`: micro-operation of phase `SCAN` (R225). -/
  | scanStep
  /-- `BFLY.STEP`: micro-operation of phase `BFLY` (R226). -/
  | bflyStep
  /-- `DONE.HOLD`: micro-operation of phase `DONE` (R227). -/
  | doneHold
  deriving DecidableEq, Repr

/-- An operation word on the port it is presented on. Each format has one fixed length (R100). -/
inductive OpWord where
  /-- Format `CMD`: the value of `inverse` sampled with `start` = 1 (R95). -/
  | cmd (w : BitVec 1)
  /-- Format `HACC`: the host access word (R96). -/
  | hacc (w : BitVec 28)
  /-- Format `UOP`: the code held by `PHASE` (R97). -/
  | uop (w : BitVec 3)
  deriving DecidableEq, Repr

end Sys2Proof
end

