-- ==== Sys2Proof/Machine/Dispatch.lean ====
section
/-! DEFINITION. The meaning of every instruction, one arm per constructor. -/

namespace Sys2Proof.Machine

/-- What an operation does to a state. -/
def exec (i : Instr) (s : State) : Host.Outcome State Fault Refusal :=
  match i with
  | .fftFwd => Sys2Proof.Machine.execFftFwd s
  | .fftInv => Sys2Proof.Machine.execFftInv s
  | .hrdRe k => Sys2Proof.Machine.execHrdRe k s
  | .hrdIm k => Sys2Proof.Machine.execHrdIm k s
  | .hwrRe k v => Sys2Proof.Machine.execHwrRe k v s
  | .hwrIm k v => Sys2Proof.Machine.execHwrIm k v s
  | .idleHold => Sys2Proof.Machine.execIdleHold s
  | .permStep => Sys2Proof.Machine.execPermStep s
  | .scanStep => Sys2Proof.Machine.execScanStep s
  | .bflyStep => Sys2Proof.Machine.execBflyStep s
  | .doneHold => Sys2Proof.Machine.execDoneHold s

end Sys2Proof.Machine
end

