-- ==== Sys2Proof/WellFormed.lean ====
section
/-! DEFINITION. Which operation words, and which instructions, the spec gives a meaning. -/

namespace Sys2Proof

/-- `CMD` and `HACC` "have no reserved, illegal or hint pattern"; `UOP` codes `101`, `110`, `111` are reserved (R99). -/
def OpWord.wellFormed : OpWord → Bool
  | .cmd _ => true
  | .hacc _ => true
  | .uop w => w.toNat < 5

/-- Every operand of an instruction has exactly the width of its field, and "every value of every field is defined"
(R96), so every instruction term is well formed. -/
def Instr.wellFormed : Instr → Bool
  | .fftFwd => true
  | .fftInv => true
  | .hrdRe _ => true
  | .hrdIm _ => true
  | .hwrRe _ _ => true
  | .hwrIm _ _ => true
  | .idleHold => true
  | .permStep => true
  | .scanStep => true
  | .bflyStep => true
  | .doneHold => true

end Sys2Proof
end

