-- ==== Sys2Proof/Decode.lean ====
section
/-! DEFINITION. The decoder of the three formats (R95 to R99), total, rejecting by name; the encoder; and the reading of
a word as the opcode table numbers it. -/

namespace Sys2Proof

/-- Why a word selects no operation. -/
inductive DecodeError where
  /-- A reserved `PHASE` code: `101`, `110` or `111` (R99, R228). -/
  | reservedPhaseCode (code : BitVec 3)
  deriving DecidableEq, Repr

/-- Format `CMD`: bit 0 is `inverse`, 0 forward and 1 inverse (R95). -/
def decodeCmd (w : BitVec 1) : Instr :=
  if w = 0#1 then .fftFwd else .fftInv

/-- Field `we`, bit 27: 1 = write (R96). -/
def haccWe (w : BitVec 28) : Bool := w.getLsbD 27

/-- Field `sel`, bit 26: 0 = `RE`, 1 = `IM` (R96). -/
def haccSel (w : BitVec 28) : Bool := w.getLsbD 26

/-- Field `idx`, bits 25:16 (R96). -/
def haccIdx (w : BitVec 28) : Index := w.extractLsb' 16 10

/-- Field `wdata`, bits 15:0 (R96). -/
def haccWdata (w : BitVec 28) : Word := w.extractLsb' 0 16

/-- Format `HACC` (R96): `wdata` is ignored on a read. -/
def decodeHacc (w : BitVec 28) : Instr :=
  match haccWe w, haccSel w with
  | false, false => .hrdRe (haccIdx w)
  | false, true => .hrdIm (haccIdx w)
  | true, false => .hwrRe (haccIdx w) (haccWdata w)
  | true, true => .hwrIm (haccIdx w) (haccWdata w)

/-- Format `UOP` (R97). -/
def decodeUop (w : BitVec 3) : Except DecodeError Instr :=
  match w.toNat with
  | 0 => .ok .idleHold
  | 1 => .ok .permStep
  | 2 => .ok .scanStep
  | 3 => .ok .bflyStep
  | 4 => .ok .doneHold
  | _ => .error (.reservedPhaseCode w)

/-- The operation a word selects on its port (R98). -/
def decode : OpWord → Except DecodeError Instr
  | .cmd w => .ok (decodeCmd w)
  | .hacc w => .ok (decodeHacc w)
  | .uop w => decodeUop w

/-- The access word with the given fields, `we` and `sel` on top (R96). -/
def haccWord (we sel : BitVec 1) (k : Index) (v : Word) : BitVec 28 := we ++ sel ++ k ++ v

/-- The word of an instruction, on its port, written from the tables of R95, R96 and R97. "On a read the host should
drive `wdata` = 0". -/
def encode : Instr → OpWord
  | .fftFwd => .cmd 0b0#1
  | .fftInv => .cmd 0b1#1
  | .hrdRe k => .hacc (haccWord 0b0#1 0b0#1 k 0#16)
  | .hrdIm k => .hacc (haccWord 0b0#1 0b1#1 k 0#16)
  | .hwrRe k v => .hacc (haccWord 0b1#1 0b0#1 k v)
  | .hwrIm k v => .hacc (haccWord 0b1#1 0b1#1 k v)
  | .idleHold => .uop 0b000#3
  | .permStep => .uop 0b001#3
  | .scanStep => .uop 0b010#3
  | .bflyStep => .uop 0b011#3
  | .doneHold => .uop 0b100#3

/-- Which port's word the opcode table means by `w` in `nbits` bits (log 14). The exact widths 1, 3 and 28 name the
format. In whole bytes a `HACC` word has 32 bits, and the `CMD` and `UOP` words have 8 bits alike: there a value that
fits the 1-bit command word (0 or 1) is a command, and a larger value is a phase code. -/
def tableWord (nbits w : Nat) : Option OpWord :=
  match nbits with
  | 1 => if w < 2 then some (.cmd (BitVec.ofNat 1 w)) else none
  | 3 => if w < 8 then some (.uop (BitVec.ofNat 3 w)) else none
  | 8 =>
    if w < 2 then some (.cmd (BitVec.ofNat 1 w))
    else if w < 8 then some (.uop (BitVec.ofNat 3 w))
    else none
  | 28 => if w < 2 ^ 28 then some (.hacc (BitVec.ofNat 28 w)) else none
  | 32 => if w < 2 ^ 28 then some (.hacc (BitVec.ofNat 28 w)) else none
  | _ => none

/-- The instruction the decoder reads from the word `w` of `nbits` bits, bits numbered as `spec/opcode_table.json`
numbers them. -/
def decodeTableWord (nbits w : Nat) : Option Instr :=
  match tableWord nbits w with
  | none => none
  | some p =>
    match decode p with
    | .ok instr => some instr
    | .error _ => none

end Sys2Proof
end

