-- ==== Sys2Proof/Machine/Fetch.lean ====
section
/-! DEFINITION. Where the words of a micro-step come from: the access word on the host port, the command on the inputs
`start` and `inverse`, and the code in `PHASE` (R95, R96, R97). -/

namespace Sys2Proof.Machine

/-- The word of the engine's operation in this micro-step: the command word when the host presents `start` = 1 and the
phase accepts it (R222), otherwise the code in `PHASE` (R97); a `start` while busy is ignored (R233). -/
def State.engineWord (s : State) : OpWord :=
  if s.pins.start && !s.busy then .cmd (BitVec.ofBool s.pins.inverse) else .uop s.phase.code

/-- The sequencer position (`PHASE`, `STAGE`, `STEP`, `G`, `I`, `IDX`) at which phase `p` is first entered in a transform
(R30, R36): what stands in the place of a program counter. -/
def State.atPhase (p : Phase) (s : State) : State :=
  match p with
  | .idle => { s with phase := .idle, idx := 0#10, stage := 0#4, step := 1#11, g := 0#10, i := 0#10 }
  | .perm => { s with phase := .perm, idx := 0#10, stage := 10#4, step := 1#11, g := 0#10, i := 0#10 }
  | .scan => { s with phase := .scan, idx := 0#10, stage := 10#4, step := 1#11, g := 0#10, i := 0#10 }
  | .bfly => { s with phase := .bfly, idx := 0#10, stage := 10#4, step := 1#11, g := 0#10, i := 0#10 }
  | .done => { s with phase := .done, idx := 0#10, stage := 0#4, step := 1024#11, g := 0#10, i := 0#10 }

/-- The inputs of a micro-step in which the host presents the command word `w` (R95). -/
def HostInput.ofCmd (w : BitVec 1) : HostInput := { HostInput.quiet with start := true, inverse := w == 1#1 }

/-- The inputs of a micro-step in which the host presents the access word `w` (R96). -/
def HostInput.ofHacc (w : BitVec 28) : HostInput := { HostInput.quiet with hvalid := true, hacc := w }

/-- `s` with the word `p` where the next micro-step takes it from: a command or an access word on the input pins, a
phase code in the sequencer position. A reserved phase code is no position, and leaves `s` as it is. -/
def State.present (p : OpWord) (s : State) : State :=
  match p with
  | .cmd w => { s with host := HostInput.ofCmd w :: s.host }
  | .hacc w => { s with host := HostInput.ofHacc w :: s.host }
  | .uop w =>
    match Phase.ofCode w with
    | some ph => State.atPhase ph { s with host := HostInput.quiet :: s.host }
    | none => s

end Sys2Proof.Machine
end

