-- ==== Sys2Proof/Machine/MicroStep.lean ====
section
/-! DEFINITION. One micro-step of the block (R220): the words it takes from the ports and from `PHASE`, decoded and
executed in the spec's order. -/

namespace Sys2Proof.Machine

/-- The operation a word selects, executed. -/
def runWord (p : OpWord) (s : State) : Answer :=
  match decode p with
  | .ok instr => exec instr s
  | .error (.reservedPhaseCode _) => .refused .reservedPhaseCode

/-- The host access of this micro-step, when the host presents one (R106). -/
def hostAccess (s : State) : Answer :=
  if s.pins.hvalid then runWord (.hacc s.pins.hacc) s else .next s

/-- The engine's operation of this micro-step: the accepted command, or the micro-operation `PHASE` selects (R97,
R222). -/
def engineOperation (s : State) : Answer := runWord s.engineWord s

/-- One micro-step. `reset` takes priority over everything (R290). Otherwise a host access presented in it is performed
first (R234; log 3), then the engine's operation. The read-data output carries the data of this micro-step's read, if it
made one (log 4), and the input pins are used up. -/
def microStep (s : State) : Answer :=
  if s.pins.reset then .next s.applyReset.popInput
  else
    andThen (hostAccess (s.setHrdata none)) fun s1 =>
      andThen (engineOperation s1) fun s2 => .next s2.popInput

end Sys2Proof.Machine
end

