-- ==== Sys2Proof/Machine/Step.lean ====
section
/-! DEFINITION. The machine's step, and the placing of a word where the next step takes it from. -/

namespace Sys2Proof.Machine

/-- One step is one micro-step (R220; log 1). -/
def step (s : State) : Host.Outcome State Fault Refusal := microStep s

/-- `s` with the table's word `w` of `nbits` bits presented to the next micro-step (log 13). -/
def State.withFetchWord (s : State) (nbits w : Nat) : State :=
  match tableWord nbits w with
  | some p => s.present p
  | none => s

end Sys2Proof.Machine
end

