-- ==== Sys2Proof/Machine/Script.lean ====
section
/-! DEFINITION. The script notation of R104 and R105 as the host inputs it stands for: one micro-step's pins for each
encoded line, and the expansion of the pseudo-operations. -/

namespace Sys2Proof.Machine

/-- The inputs of the micro-step in which the host presents an operation word. A micro-operation is never presented:
"the engine issues them to itself" (R104). -/
def HostInput.ofWord : OpWord → HostInput
  | .cmd w => HostInput.ofCmd w
  | .hacc w => HostInput.ofHacc w
  | .uop _ => HostInput.quiet

/-- One script line: the word of its encoding on its port (R104). -/
def line (instr : Instr) : HostInput := HostInput.ofWord (encode instr)

/-- `LOAD.RE f` (R105). -/
def loadRe (f : Index → Word) : List HostInput :=
  (List.range 1024).map fun k => line (.hwrRe (BitVec.ofNat 10 k) (f (BitVec.ofNat 10 k)))

/-- `LOAD.IM f` (R105). -/
def loadIm (f : Index → Word) : List HostInput :=
  (List.range 1024).map fun k => line (.hwrIm (BitVec.ofNat 10 k) (f (BitVec.ofNat 10 k)))

/-- `FILL.RE v` (R105). -/
def fillRe (v : Word) : List HostInput := loadRe fun _ => v

/-- `FILL.IM v` (R105). -/
def fillIm (v : Word) : List HostInput := loadIm fun _ => v

/-- `CLEAR` (R105): `FILL.RE 0` followed by `FILL.IM 0`. -/
def clear : List HostInput := fillRe 0#16 ++ fillIm 0#16

/-- `WAIT` after an accepted command (R105; log 18): the host presents nothing until `done` = 1, which is after the
16384 micro-steps that follow the accepted `START` (R220). -/
def wait : List HostInput := List.replicate 16384 HostInput.quiet

/-- `reset` for one micro-step (R290). -/
def resetPulse : HostInput := { HostInput.quiet with reset := true }

end Sys2Proof.Machine
end

