-- ==== Sys2Proof/Machine/Transaction.lean ====
section
/-! DEFINITION. The transaction level (R8, R210): the composites that have a rule and no encoding, as functions on states.
The micro-steps of `Step.lean` carry them out one swap, one scanned index or one butterfly at a time (R229). Each takes
the parameter `HALVE_MODE` where it depends on it; the block's value is the field `halveMode`. -/

namespace Sys2Proof.Machine

/-- `PERMUTE` (R144): `PERM.SWAP` at every index in ascending order. -/
def permute (s : State) : State :=
  (List.range 1024).foldl (fun s k => permSwap (BitVec.ofNat 10 k) s) s

/-- `RANGE.SCAN` (R211): some component of some sample lies outside the safe sub-range. -/
def rangeScan (s : State) : Bool :=
  (List.range 1024).any fun k =>
    oor (s.readSample .re (BitVec.ofNat 10 k)) || oor (s.readSample .im (BitVec.ofNat 10 k))

/-- The near index `g + 2*STEP*t` of butterfly `t` of group `g` (R103, R180). -/
def nearIndex (step g t : Nat) : Index := BitVec.ofNat 10 (g + 2 * step * t)

/-- The far index of butterfly `t` of group `g`: the near index plus `STEP` (R103, R180). -/
def passFarIndex (step g t : Nat) : Index := BitVec.ofNat 10 (g + 2 * step * t + step)

/-- The twiddle angle index `g << (stage - 1)` inside a stage pass (R102). -/
def passIndex (stage g : Nat) : BitVec 9 := BitVec.ofNat 9 (g * 2 ^ (stage - 1))

/-- The butterflies of one group of a stage (R183). -/
def groupPass (mode : HalveMode) (stage : Nat) (inv shift : Bool) (g : Nat) (s : State) : State :=
  let step := stepOfStage stage
  let w := twiddleWeights mode s.tw (passIndex stage g) inv shift
  (List.range (512 / step)).foldl
    (fun s t => bfly mode (nearIndex step g t) (passFarIndex step g t) w.1 w.2 shift s) s

/-- `STAGE.PASS(stage, inv, shift)` (R183): groups ascending, butterflies of a group ascending. -/
def stagePass (mode : HalveMode) (stage : Nat) (inv shift : Bool) (s : State) : State :=
  (List.range (stepOfStage stage)).foldl (fun s g => groupPass mode stage inv shift g s) s

/-- One turn of the loop of `STAGES` (R213): the scan, the scale accumulation (R212), the pass. -/
def stageOnce (mode : HalveMode) (stage : Nat) (inv : Bool) (s : State) : State :=
  let sh := rangeScan s
  stagePass mode stage inv sh { s with shift := sh, scale := if sh then s.scale + 1#4 else s.scale }

/-- The stages with index `stage` down to 1 (R213). -/
def stagesFrom (mode : HalveMode) (inv : Bool) : Nat → State → State
  | 0, s => s
  | stage + 1, s => stagesFrom mode inv stage (stageOnce mode (stage + 1) inv s)

/-- `STAGES(inv)` (R213): stage index 10 down to 1. -/
def stages (mode : HalveMode) (inv : Bool) (s : State) : State := stagesFrom mode inv Config.log2N s

/-- `TRANSFORM(inverse)` (R216): `RE`, `IM`, `INV`, `SHIFT` and `SCALE` of the result; the sequencer registers are not
part of this level (R30). -/
def transformWith (mode : HalveMode) (inverse : Bool) (s : State) : State :=
  stages mode inverse (permute { s with inv := inverse, scale := 0#4 })

/-- `TRANSFORM(inverse)` in the block's `HALVE_MODE`. -/
def transform (inverse : Bool) (s : State) : State := transformWith s.halveMode inverse s

end Sys2Proof.Machine
end

