-- ==== Sys2Proof/Safety.lean ====
section
/-! DEFINITION. The terms claims use: the state invariant (R36), what the host must keep to (R300), and the shift
decisions of a transform (R212). -/

namespace Sys2Proof.Machine

/-- Both sample memories are in canonical form. -/
abbrev State.memWf (s : State) : Prop := Memory.wf .re s.re ∧ Memory.wf .im s.im

/-- Every word of `RE` and `IM` reads in `t` as it reads in `s`. -/
abbrev State.sameSamples (s t : State) : Prop := ∀ (c : Channel) (k : Index), t.readSample c k = s.readSample c k

/-- `TW` and `BR` are the same in `s` and `t`. -/
abbrev State.sameRoms (s t : State) : Prop := t.tw = s.tw ∧ t.br = s.br

/-- The ports of the block, inputs and read data, are the same in `s` and `t`. -/
abbrev State.samePorts (s t : State) : Prop := t.hrdata = s.hrdata ∧ t.host = s.host

/-- Every register of the engine is the same in `s` and `t` (R24 to R29). -/
abbrev State.sameRegisters (s t : State) : Prop :=
  t.scale = s.scale ∧ t.inv = s.inv ∧ t.shift = s.shift ∧ t.phase = s.phase ∧ t.idx = s.idx ∧ t.stage = s.stage ∧
    t.step = s.step ∧ t.g = s.g ∧ t.i = s.i

/-- The registers hold their reset values (R34, R291). -/
abbrev State.registersReset (s : State) : Prop :=
  s.scale = 0#4 ∧ s.inv = false ∧ s.shift = false ∧ s.phase = .idle ∧ s.idx = 0#10 ∧ s.stage = 0#4 ∧ s.step = 1#11 ∧
    s.g = 0#10 ∧ s.i = 0#10

/-- The registers are as `START` with direction `inverse` leaves them (R222). -/
abbrev State.registersStarted (inverse : Bool) (s : State) : Prop :=
  s.inv = inverse ∧ s.scale = 0#4 ∧ s.shift = false ∧ s.idx = 0#10 ∧ s.stage = 10#4 ∧ s.step = 1#11 ∧ s.g = 0#10 ∧
    s.i = 0#10 ∧ s.phase = .perm

/-- What holds of the sequencer registers in each phase, after reset and after every micro-step. It contains R36 (b) to
(e) and the bound of U5 on `SCALE`, which makes it inductive. -/
def SequencerInv (s : State) : Prop :=
  match s.phase with
  | .idle =>
    s.scale = 0#4 ∧ s.inv = false ∧ s.shift = false ∧ s.idx = 0#10 ∧ s.stage = 0#4 ∧ s.step = 1#11 ∧ s.g = 0#10 ∧
      s.i = 0#10
  | .perm => s.scale = 0#4 ∧ s.shift = false ∧ s.stage = 10#4 ∧ s.step = 1#11 ∧ s.g = 0#10 ∧ s.i = 0#10
  | .scan =>
    1 ≤ s.stage.toNat ∧ s.scale.toNat + s.stage.toNat ≤ 10 ∧ s.step.toNat = 2 ^ (10 - s.stage.toNat) ∧ s.g = 0#10 ∧
      s.i = 0#10
  | .bfly =>
    1 ≤ s.stage.toNat ∧ s.stage.toNat ≤ 10 ∧ s.scale.toNat + s.stage.toNat ≤ 11 ∧
      s.step.toNat = 2 ^ (10 - s.stage.toNat) ∧ s.idx = 0#10 ∧ s.g.toNat < s.step.toNat ∧
      s.i.toNat % (2 * s.step.toNat) = s.g.toNat ∧ s.i.toNat + s.step.toNat ≤ 1023
  | .done =>
    s.scale.toNat ≤ 10 ∧ s.stage = 0#4 ∧ s.step = 1024#11 ∧ s.idx = 0#10 ∧ s.g = 0#10 ∧ s.i = 0#10

/-- The state invariant: canonical sample memories, ROMs with their constant contents (R36 (f)), and the sequencer
registers of the phase. -/
structure Inv (s : State) : Prop where
  /-- `RE` is in canonical form. -/
  re : Memory.wf .re s.re
  /-- `IM` is in canonical form. -/
  im : Memory.wf .im s.im
  /-- `TW` holds its constant contents. -/
  tw : s.tw = twiddleRom
  /-- `BR` holds its constant contents. -/
  br : s.br = bitReversalRom
  /-- The sequencer registers agree with the phase. -/
  sequencer : SequencerInv s

/-- The host keeps its exclusion in this micro-step: no access to `RE` or `IM` while `busy` = 1 (R300), unless `reset`
overrides it (R290). -/
def State.hostExcluded (s : State) : Bool := s.pins.reset || !(s.busy && s.pins.hvalid)

/-- The host neither resets the block nor accesses its memories in this micro-step; `start` and `inverse` are free. -/
def HostInput.undisturbing (p : HostInput) : Bool := !p.reset && !p.hvalid

/-- The `SHIFT` values of the stages with index `stage` down to 1, in stage order (R212). -/
def shiftsFrom (mode : HalveMode) (inv : Bool) : Nat → State → List Bool
  | 0, _ => []
  | stage + 1, s => rangeScan s :: shiftsFrom mode inv stage (stageOnce mode (stage + 1) inv s)

/-- The ten `SHIFT` values of a whole transform. -/
def transformShifts (mode : HalveMode) (inverse : Bool) (s : State) : List Bool :=
  shiftsFrom mode inverse Config.log2N (permute { s with inv := inverse, scale := 0#4 })

end Sys2Proof.Machine
end

