-- ==== Sys2Proof/Certificates/Slice0/Obligations.lean ====
section
/-! DEFINITION. The statements about this model, for the provers. Each docstring says which rule of `spec/` it
formalises, or that a clause of it is the model's own choice and in which log entry. -/

open Sys2Proof Sys2Proof.Machine

/-- After reset SCALE, INV, SHIFT, IDX, STAGE, G and I are 0, STEP is 1, PHASE is IDLE, TW and BR hold their constant
contents, and the outputs busy, done and scale are 0. RE and IM are unspecified, so nothing is stated of them.
(R291) -/
def Obligations.ResetLeavesSpecValues : Prop :=
  State.reset.registersReset ∧ State.reset.tw = twiddleRom ∧ State.reset.br = bitReversalRom ∧
    State.reset.busy = false ∧ State.reset.doneOut = false ∧ State.reset.scaleOut = 0#4

/-- In any state, with any other inputs, a step with reset asserted answers a next state whose registers have their
reset values and whose outputs are 0; RE, IM, TW, BR and HALVE_MODE are unchanged. The clauses on the model's own
port fields are its choice: the inputs are used up (log 2) and no read data is returned (log 4). (R290, R291) -/
def Obligations.ResetInputDominates : Prop :=
  ∀ s : State, s.pins.reset = true →
    ∃ t, step s = .next t ∧ t.registersReset ∧ t.busy = false ∧ t.doneOut = false ∧ t.scaleOut = 0#4 ∧
      s.sameSamples t ∧ s.sameRoms t ∧ t.halveMode = s.halveMode ∧ t.hrdata = none ∧ t.host = s.host.tail

/-- busy is 1 exactly in PERM, SCAN and BFLY; done is 1 exactly in DONE; scale is SCALE. (R27, 10_state.md section 3) -/
def Obligations.StatusOutputsFollowState : Prop :=
  ∀ s : State,
    (s.busy = true ↔ s.phase = .perm ∨ s.phase = .scan ∨ s.phase = .bfly) ∧
      (s.doneOut = true ↔ s.phase = .done) ∧ s.scaleOut = s.scale

/-- The command words 0 and 1, the access words 0x8007FFF, 0x7FF0000, 0x8011F40, 0xBFF7FFF, 0x4010000 and 0xC00FFFF, and
the five phase codes decode to the operations the spec gives them. (R95, R96, R97, 95_test_vectors.md section P) -/
def Obligations.DecodesWordsOfTheSpec : Prop :=
  decode (.cmd 0b0#1) = .ok .fftFwd ∧ decode (.cmd 0b1#1) = .ok .fftInv ∧
    decode (.hacc 0x8007FFF#28) = .ok (.hwrRe 0#10 0x7FFF#16) ∧
    decode (.hacc 0x7FF0000#28) = .ok (.hrdIm 1023#10) ∧
    decode (.hacc 0x8011F40#28) = .ok (.hwrRe 1#10 8000#16) ∧
    decode (.hacc 0xBFF7FFF#28) = .ok (.hwrRe 1023#10 32767#16) ∧
    decode (.hacc 0x4010000#28) = .ok (.hrdIm 1#10) ∧
    decode (.hacc 0xC00FFFF#28) = .ok (.hwrIm 0#10 0xFFFF#16) ∧
    decode (.uop 0b000#3) = .ok .idleHold ∧ decode (.uop 0b001#3) = .ok .permStep ∧
    decode (.uop 0b010#3) = .ok .scanStep ∧ decode (.uop 0b011#3) = .ok .bflyStep ∧
    decode (.uop 0b100#3) = .ok .doneHold

/-- Every 28-bit word is the concatenation of its fields we (bit 27), sel (26), idx (25:16) and wdata (15:0); the word
with fields we, sel, k, v decodes to HRD.RE k, HRD.IM k, HWR.RE k v or HWR.IM k v by we and sel, whatever wdata is
on a read. (R96) -/
def Obligations.AccessWordIsItsFields : Prop :=
  (∀ w : BitVec 28, haccWord (w.extractLsb' 27 1) (w.extractLsb' 26 1) (w.extractLsb' 16 10) (w.extractLsb' 0 16) = w) ∧
    ∀ (k : Index) (v : Word),
      decode (.hacc (haccWord 0#1 0#1 k v)) = .ok (.hrdRe k) ∧ decode (.hacc (haccWord 0#1 1#1 k v)) = .ok (.hrdIm k) ∧
        decode (.hacc (haccWord 1#1 0#1 k v)) = .ok (.hwrRe k v) ∧
        decode (.hacc (haccWord 1#1 1#1 k v)) = .ok (.hwrIm k v)

/-- For every well-formed instruction, decode of encode is the instruction, with every operand at every value.
Conversely, a word that decodes to an instruction is that instruction's encoding, or it is a read access word that
differs from it only in wdata, which the engine ignores. (R95, R96, R97, R98) -/
def Obligations.DecodeInvertsEncode : Prop :=
  (∀ i : Instr, i.wellFormed = true → decode (encode i) = .ok i) ∧
    ∀ (p : OpWord) (i : Instr), decode p = .ok i →
      encode i = p ∨
        ∃ (sel : BitVec 1) (k : Index) (v : Word),
          p = .hacc (haccWord 0#1 sel k v) ∧ encode i = .hacc (haccWord 0#1 sel k 0#16)

/-- A word fails to decode exactly when it is a UOP word with code 5, 6 or 7, which is exactly when it is ill formed;
every CMD and HACC word decodes. (R99, R228) -/
def Obligations.OnlyReservedPhaseCodesAreRefused : Prop :=
  ∀ p : OpWord,
    ((∀ i, decode p ≠ .ok i) ↔ p.wellFormed = false) ∧
      (p.wellFormed = false ↔ p = .uop 0b101#3 ∨ p = .uop 0b110#3 ∨ p = .uop 0b111#3)

/-- The engine's word of a step is the command word of inverse when start is 1 and the engine is not busy, and the phase
code otherwise; it always decodes. Without reset a step is exec of the decoded access (if hvalid) followed by exec
of the decoded engine word, on the state with no read data yet, and then the inputs are used up. The order of an
access and the engine's operation when start is 0 and the two port fields are the model's (log 2, log 3, log 4).
(R97, R222, R234, R106) -/
def Obligations.StepRunsDecodedOperations : Prop :=
  ∀ s : State, s.pins.reset = false →
    (s.pins.start = true → s.busy = false → s.engineWord = .cmd (BitVec.ofBool s.pins.inverse)) ∧
      (s.pins.start = false ∨ s.busy = true → s.engineWord = .uop s.phase.code) ∧
      (∃ i, decode s.engineWord = .ok i) ∧
      (s.pins.hvalid = false → ∀ i, decode s.engineWord = .ok i →
        step s = andThen (exec i (s.setHrdata none)) fun t => .next t.popInput) ∧
      (s.pins.hvalid = true → ∀ a i, decode (.hacc s.pins.hacc) = .ok a → decode s.engineWord = .ok i →
        step s = andThen (exec a (s.setHrdata none)) fun u => andThen (exec i u) fun t => .next t.popInput)

/-- For every width and word the model's table decoder reads as an instruction i, exec of i answers a next state in the
reset state with that word presented, and the next step is that state with its inputs used up. That placing is the
model's choice (log 13, log 14). (R98, 30_encoding.md section 4) -/
def Obligations.PresentedTableWordRunsAfterReset : Prop :=
  ∀ (nbits w : Nat) (i : Instr), decodeTableWord nbits w = some i →
    ∃ t, exec i ((State.reset.withFetchWord nbits w).setHrdata none) = .next t ∧
      step (State.reset.withFetchWord nbits w) = .next t.popInput

/-- While busy and without reset, a step answers the same whatever start and inverse are: the command changes no state
and is not remembered. (R233) -/
def Obligations.BusyEngineIgnoresStart : Prop :=
  ∀ (s : State) (p : HostInput) (rest : List HostInput) (b d : Bool), s.busy = true → p.reset = false →
    s.host = p :: rest →
    step { s with host := { p with start := b, inverse := d } :: rest } = step s

/-- Not busy, without reset, with start = 1: a valid write access stores its word and the same step performs START,
leaving every other word; a valid read access returns the word as read data and the same step performs START. That a
write leaves no read data (log 4) and that the step uses up its inputs and leaves the coming ones (log 2) are the
model's choices. (R234, 44_fft_engine_control.md section 5) -/
def Obligations.AccessPrecedesStart : Prop :=
  ∀ (s : State) (d : Bool) (c : Channel) (k : Index) (v : Word) (rest : List HostInput),
    s.memWf → s.busy = false → s.registersDefined = true →
    (s.host = ⟨false, true, d, true, haccWord 1#1 (if c = .re then 0#1 else 1#1) k v⟩ :: rest →
      ∃ t, step s = .next t ∧ t.registersStarted d ∧ t.readSample c k = v ∧
        (∀ e l, e ≠ c ∨ l ≠ k → t.readSample e l = s.readSample e l) ∧ s.sameRoms t ∧ t.hrdata = none ∧ t.host = rest) ∧
    (s.host = ⟨false, true, d, true, haccWord 0#1 (if c = .re then 0#1 else 1#1) k v⟩ :: rest →
      ∃ t, step s = .next t ∧ t.registersStarted d ∧ s.sameSamples t ∧ s.sameRoms t ∧
        t.hrdata = some (s.readSample c k) ∧ t.host = rest)

/-- In IDLE or DONE (with register values the spec gives a meaning), FFT.FWD and FFT.INV answer the next state in which
INV is 0 respectively 1, SCALE, SHIFT, IDX, G and I are 0, STAGE is 10, STEP is 1 and PHASE is PERM; the memories,
the ROMs and the ports are unchanged. While busy a command changes nothing. (R222) -/
def Obligations.CommandStartsTransform : Prop :=
  ∀ s : State,
    (s.busy = false → s.registersDefined = true →
      (∃ t, exec .fftFwd s = .next t ∧ t.registersStarted false ∧ s.sameSamples t ∧ s.sameRoms t ∧ s.samePorts t) ∧
        ∃ t, exec .fftInv s = .next t ∧ t.registersStarted true ∧ s.sameSamples t ∧ s.sameRoms t ∧ s.samePorts t) ∧
      (s.busy = true → exec .fftFwd s = .next s ∧ exec .fftInv s = .next s)

/-- While not busy, HRD.RE k and HRD.IM k answer the same state with hrdata holding the word RE[k] respectively IM[k];
no register, no word and no input changes. (R231) -/
def Obligations.HostReadReturnsWord : Prop :=
  ∀ (s : State) (k : Index), s.busy = false →
    exec (.hrdRe k) s = .next { s with hrdata := some (s.readSample .re k) } ∧
      exec (.hrdIm k) s = .next { s with hrdata := some (s.readSample .im k) }

/-- While not busy, HWR.RE k v answers a next state in which RE[k] reads v, and every other word of RE, every word of
IM, every register, the ROMs and the ports are unchanged; HWR.IM likewise for IM. Premise: the memories are in
canonical form, which StepKeepsInv keeps. (R230) -/
def Obligations.HostWriteStoresWord : Prop :=
  ∀ (s : State) (k : Index) (v : Word), s.memWf → s.busy = false →
    (∃ t, exec (.hwrRe k v) s = .next t ∧ t.readSample .re k = v ∧
      (∀ c l, c ≠ .re ∨ l ≠ k → t.readSample c l = s.readSample c l) ∧ s.sameRegisters t ∧ s.sameRoms t ∧ s.samePorts t) ∧
    ∃ t, exec (.hwrIm k v) s = .next t ∧ t.readSample .im k = v ∧
      (∀ c l, c ≠ .im ∨ l ≠ k → t.readSample c l = s.readSample c l) ∧ s.sameRegisters t ∧ s.sameRoms t ∧ s.samePorts t

/-- HRD.RE, HRD.IM, HWR.RE and HWR.IM are refused with hostAccessWhileBusy while busy = 1, and answer a next state while
busy = 0; while busy = 0 the engine performs no access: IDLE.HOLD and DONE.HOLD, when they answer a next state,
leave every word of RE and IM. (R69) -/
def Obligations.HostAccessWhileBusyIsRefused : Prop :=
  ∀ (s : State) (k : Index) (v : Word),
    (s.busy = true →
      exec (.hrdRe k) s = .refused .hostAccessWhileBusy ∧ exec (.hrdIm k) s = .refused .hostAccessWhileBusy ∧
        exec (.hwrRe k v) s = .refused .hostAccessWhileBusy ∧ exec (.hwrIm k v) s = .refused .hostAccessWhileBusy) ∧
      (s.busy = false →
        (∃ t, exec (.hrdRe k) s = .next t) ∧ (∃ t, exec (.hrdIm k) s = .next t) ∧
          (∃ t, exec (.hwrRe k v) s = .next t) ∧ (∃ t, exec (.hwrIm k v) s = .next t) ∧
          (∀ t, exec .idleHold s = .next t → s.sameSamples t) ∧ ∀ t, exec .doneHold s = .next t → s.sameSamples t)

/-- In its phase (with register values the spec gives a meaning) each hold operation answers the same state when start
is 0, and with start = 1 the state START gives for the input inverse, with memories, ROMs and ports unchanged.
(R223, R227) -/
def Obligations.HoldWaitsForStart : Prop :=
  ∀ s : State, s.registersDefined = true →
    (s.phase = .idle → s.busy = false ∧ s.doneOut = false ∧
      (s.pins.start = false → exec .idleHold s = .next s) ∧
      (s.pins.start = true → ∃ t, exec .idleHold s = .next t ∧ t.registersStarted s.pins.inverse ∧ s.sameSamples t ∧
        s.sameRoms t ∧ s.samePorts t)) ∧
    (s.phase = .done → s.busy = false ∧ s.doneOut = true ∧
      (s.pins.start = false → exec .doneHold s = .next s) ∧
      (s.pins.start = true → ∃ t, exec .doneHold s = .next t ∧ t.registersStarted s.pins.inverse ∧ s.sameSamples t ∧
        s.sameRoms t ∧ s.samePorts t))

/-- In phase PERM (with register values the spec gives a meaning), with r = BR[IDX]: if r > IDX the samples IDX and r
are exchanged in both channels, else no word changes; every other word is unchanged. If IDX < 1023 then IDX grows by
1 and nothing else; at 1023 IDX and SHIFT become 0, STAGE 10, STEP 1 and PHASE becomes SCAN. SCALE, INV, G, I, the
ROMs and the ports are unchanged. (R143, R224) -/
def Obligations.PermStepSwapsOnePair : Prop :=
  ∀ s : State, s.memWf → s.phase = .perm → s.registersDefined = true →
    ∃ t, exec .permStep s = .next t ∧
      (∀ c : Channel,
        (s.idx < brRead s.br s.idx →
          t.readSample c s.idx = s.readSample c (brRead s.br s.idx) ∧
            t.readSample c (brRead s.br s.idx) = s.readSample c s.idx ∧
            ∀ k, k ≠ s.idx → k ≠ brRead s.br s.idx → t.readSample c k = s.readSample c k) ∧
        (¬ s.idx < brRead s.br s.idx → ∀ k, t.readSample c k = s.readSample c k)) ∧
      (s.idx.toNat < 1023 → t.idx.toNat = s.idx.toNat + 1 ∧ t.shift = s.shift ∧ t.stage = s.stage ∧ t.step = s.step ∧
        t.phase = .perm) ∧
      (s.idx.toNat = 1023 → t.idx = 0#10 ∧ t.shift = false ∧ t.stage = 10#4 ∧ t.step = 1#11 ∧ t.phase = .scan) ∧
      t.scale = s.scale ∧ t.inv = s.inv ∧ t.g = s.g ∧ t.i = s.i ∧ s.sameRoms t ∧ s.samePorts t

/-- In phase SCAN (with register values the spec gives a meaning) SHIFT becomes 1 exactly if it was 1 or a component of
sample IDX is below -16384 or above 16383. If IDX < 1023 then IDX grows by 1 and nothing else changes; at 1023 SCALE
grows by 1 (modulo 16) if the new SHIFT is 1, IDX, G and I become 0 and PHASE becomes BFLY. No sample word is
written; INV, STAGE, STEP, the ROMs and the ports are unchanged. (R225) -/
def Obligations.ScanStepAccumulatesShift : Prop :=
  ∀ s : State, s.phase = .scan → s.registersDefined = true →
    ∃ t, exec .scanStep s = .next t ∧
      (t.shift = true ↔ s.shift = true ∨
        ∃ c : Channel, (s.readSample c s.idx).toInt < -16384 ∨ 16383 < (s.readSample c s.idx).toInt) ∧
      (s.idx.toNat < 1023 → t.idx.toNat = s.idx.toNat + 1 ∧ t.scale = s.scale ∧ t.g = s.g ∧ t.i = s.i ∧ t.phase = .scan) ∧
      (s.idx.toNat = 1023 → t.idx = 0#10 ∧ t.g = 0#10 ∧ t.i = 0#10 ∧ t.phase = .bfly ∧
        t.scale = if t.shift then s.scale + 1#4 else s.scale) ∧
      s.sameSamples t ∧ t.inv = s.inv ∧ t.stage = s.stage ∧ t.step = s.step ∧ s.sameRoms t ∧ s.samePorts t

/-- In phase BFLY, with STAGE from 1 to 10, G below 2^(10-STAGE), I + STEP below 1024 and register values the spec gives
a meaning, BFLY.STEP answers a next state. With jp = G << (STAGE-1), wr = TW[jp+256], wi = TW[jp], negated when
forward, both halved by the block's HALVE_MODE when SHIFT = 1, and near operands likewise, word I becomes near +
product and word I + STEP becomes near - product in both channels; every other word is unchanged. INV, SCALE, the
ROMs and the ports are unchanged. (R123, R181, R182, R226) -/
def Obligations.BflyStepComputesOneButterfly : Prop :=
  ∀ (s : State) (jp : BitVec 9) (j : Index), s.memWf → s.phase = .bfly → s.registersDefined = true →
    1 ≤ s.stage.toNat → s.g.toNat < 2 ^ (10 - s.stage.toNat) → jp.toNat = s.g.toNat * 2 ^ (s.stage.toNat - 1) →
    j.toNat = s.i.toNat + s.step.toNat →
    ∃ t, exec .bflyStep s = .next t ∧
      (let hv := fun x : Word => if s.shift then halve s.halveMode x else x
       let wr := hv (s.tw[jp.toNat + 256]'(by have := jp.isLt; omega))
       let sine := s.tw[jp.toNat]'(by have := jp.isLt; omega)
       let wi := hv (if s.inv then sine else neg16 sine)
       let fr := s.readSample .re j
       let fi := s.readSample .im j
       let qr := hv (s.readSample .re s.i)
       let qi := hv (s.readSample .im s.i)
       let tr := sub16 (fixMpy wr fr) (fixMpy wi fi)
       let ti := add16 (fixMpy wr fi) (fixMpy wi fr)
       t.readSample .re s.i = add16 qr tr ∧ t.readSample .im s.i = add16 qi ti ∧
         t.readSample .re j = sub16 qr tr ∧ t.readSample .im j = sub16 qi ti) ∧
      (∀ c k, k ≠ s.i → k ≠ j → t.readSample c k = s.readSample c k) ∧
      t.inv = s.inv ∧ t.scale = s.scale ∧ s.sameRoms t ∧ s.samePorts t

/-- Under the same conditions: if I + 2*STEP < 1024 then I grows by 2*STEP; else if G + 1 < STEP then G and I become G +
1; else STEP doubles, STAGE falls by 1, G and I become 0, and PHASE becomes DONE when STAGE was 1 (IDX and SHIFT
unchanged) and otherwise SCAN with IDX and SHIFT 0. In the first two cases PHASE, STAGE, STEP, IDX and SHIFT are
unchanged. (R226, R183, R213) -/
def Obligations.BflyStepAdvancesCounters : Prop :=
  ∀ s : State, s.phase = .bfly → s.registersDefined = true → 1 ≤ s.stage.toNat →
    s.g.toNat < 2 ^ (10 - s.stage.toNat) → s.i.toNat + s.step.toNat < 1024 →
    ∃ t, exec .bflyStep s = .next t ∧
      (s.i.toNat + 2 * s.step.toNat < 1024 → t.i.toNat = s.i.toNat + 2 * s.step.toNat ∧ t.g = s.g ∧ t.phase = .bfly ∧
        t.stage = s.stage ∧ t.step = s.step ∧ t.idx = s.idx ∧ t.shift = s.shift) ∧
      (1024 ≤ s.i.toNat + 2 * s.step.toNat → s.g.toNat + 1 < s.step.toNat →
        t.g.toNat = s.g.toNat + 1 ∧ t.i.toNat = s.g.toNat + 1 ∧ t.phase = .bfly ∧ t.stage = s.stage ∧ t.step = s.step ∧
          t.idx = s.idx ∧ t.shift = s.shift) ∧
      (1024 ≤ s.i.toNat + 2 * s.step.toNat → s.step.toNat ≤ s.g.toNat + 1 →
        t.step.toNat = 2 * s.step.toNat ∧ t.stage.toNat = s.stage.toNat - 1 ∧ t.g = 0#10 ∧ t.i = 0#10 ∧
          (s.stage = 1#4 → t.phase = .done ∧ t.idx = s.idx ∧ t.shift = s.shift) ∧
          (s.stage ≠ 1#4 → t.phase = .scan ∧ t.idx = 0#10 ∧ t.shift = false))

/-- With SCALE above 10, STAGE above 10, or STEP no power of two up to 1024, an accepted command and the micro-operation
of the phase are refused. In phase BFLY with meaningful values, a STAGE of 0, a G of 2^(10-STAGE) or more, or an I +
STEP of 1024 or more is refused. How such states are refused is the model's (log 8, log 10). (R99,
93_implementation_defined.md U5) -/
def Obligations.MeaninglessRegistersHaveNoStep : Prop :=
  ∀ s : State,
    (s.registersDefined = false ↔ 10 < s.scale.toNat ∨ 10 < s.stage.toNat ∨ ∀ k : Nat, k ≤ 10 → s.step.toNat ≠ 2 ^ k) ∧
      (s.registersDefined = false →
        (s.busy = false →
          exec .fftFwd s = .refused .undefinedRegisterValue ∧ exec .fftInv s = .refused .undefinedRegisterValue) ∧
        (s.phase = .idle → exec .idleHold s = .refused .undefinedRegisterValue) ∧
        (s.phase = .perm → exec .permStep s = .refused .undefinedRegisterValue) ∧
        (s.phase = .scan → exec .scanStep s = .refused .undefinedRegisterValue) ∧
        (s.phase = .bfly → exec .bflyStep s = .refused .undefinedRegisterValue) ∧
        (s.phase = .done → exec .doneHold s = .refused .undefinedRegisterValue)) ∧
      (s.registersDefined = true → s.phase = .bfly →
        s.stage = 0#4 ∨ 2 ^ (10 - s.stage.toNat) ≤ s.g.toNat ∨ 1024 ≤ s.i.toNat + s.step.toNat →
        exec .bflyStep s = .refused .indexNamesNoWord)

/-- Each of the five micro-operations is refused with notSelectedByPhase when PHASE selects another one; that it is
refused is the model's choice (log 9). (R97, 30_encoding.md section 4) -/
def Obligations.MicroOperationRunsOnlyInItsPhase : Prop :=
  ∀ s : State,
    (s.phase ≠ .idle → exec .idleHold s = .refused .notSelectedByPhase) ∧
      (s.phase ≠ .perm → exec .permStep s = .refused .notSelectedByPhase) ∧
      (s.phase ≠ .scan → exec .scanStep s = .refused .notSelectedByPhase) ∧
      (s.phase ≠ .bfly → exec .bflyStep s = .refused .notSelectedByPhase) ∧
      (s.phase ≠ .done → exec .doneHold s = .refused .notSelectedByPhase)

/-- For every instruction that answers a next state: TW, BR, HALVE_MODE and the inputs are unchanged; INV changes only
by START; SCALE changes only to 0 by START or by 1 (modulo 16) in the SCAN.STEP at IDX 1023; the read data change
only by HRD; a word of RE or IM changes only by an HWR of that word, by PERM.STEP or by BFLY.STEP. (R22, R23, R24,
R25, R60) -/
def Obligations.EachFieldHasItsWriters : Prop :=
  ∀ (i : Instr) (s t : State), exec i s = .next t →
    s.sameRoms t ∧ t.halveMode = s.halveMode ∧ t.host = s.host ∧
      (t.inv ≠ s.inv → s.busy = false ∧ t.phase = .perm) ∧
      (t.scale ≠ s.scale → (s.busy = false ∧ t.phase = .perm ∧ t.scale = 0#4) ∨
        (i = .scanStep ∧ s.idx.toNat = 1023 ∧ t.shift = true ∧ t.scale = s.scale + 1#4)) ∧
      (t.hrdata ≠ s.hrdata → ∃ k, i = .hrdRe k ∨ i = .hrdIm k) ∧
      ∀ c k, t.readSample c k ≠ s.readSample c k →
        (c = .re ∧ ∃ v, i = .hwrRe k v) ∨ (c = .im ∧ ∃ v, i = .hwrIm k v) ∨ i = .permStep ∨ i = .bflyStep

/-- wrap16(x) has the value ((x + 32768) mod 65536) - 32768 and the unsigned image x mod 65536, and it is the identity
on int16 values. (R9, 00_scope.md section 6) -/
def Obligations.WrapKeepsLowSixteenBits : Prop :=
  (∀ x : Int, (wrap16 x).toInt = (x + 32768) % 65536 - 32768 ∧ ((wrap16 x).toNat : Int) = x % 65536) ∧
    ∀ w : Word, wrap16 w.toInt = w

/-- FIX_MPY(a, b) has the value floor((a*b + 16384) / 32768) for every pair but a = b = -32768, where it is -32768; the
biased product fits 32 signed bits; the operation is commutative and 0 when an operand is 0. (R120,
40_fixed_point_multiplier.md section 1) -/
def Obligations.FixMpyRoundsHalfUp : Prop :=
  ∀ a b : Word,
    ((a.toInt = -32768 ∧ b.toInt = -32768) → (fixMpy a b).toInt = -32768) ∧
      (¬ (a.toInt = -32768 ∧ b.toInt = -32768) →
        (fixMpy a b).toInt = (a.toInt * b.toInt + 16384) / 32768) ∧
      (-2147483648 ≤ a.toInt * b.toInt + 16384 ∧ a.toInt * b.toInt + 16384 ≤ 2147483647) ∧
      fixMpy a b = fixMpy b a ∧ fixMpy 0#16 b = 0#16 ∧ fixMpy a 0#16 = 0#16

/-- For a ROM without the word -32768 (the decided ROM is one), every weight TWIDDLE forms has magnitude at most 32767,
and for every first operand of such magnitude FIX_MPY is the exact floor((a*b + 16384) / 32768), which lies in
-32767 to 32767. (R121) -/
def Obligations.EngineProductsAreNotNarrowed : Prop :=
  (∀ k : Fin 769, (twiddleRom[k.val]'k.isLt).toInt ≠ -32768) ∧
    (∀ (m : HalveMode) (tw : Vector Word 769) (jp : BitVec 9) (inv shift : Bool),
      (∀ k : Fin 769, (tw[k.val]'k.isLt).toInt ≠ -32768) →
      -32767 ≤ (twiddleWeights m tw jp inv shift).1.toInt ∧ (twiddleWeights m tw jp inv shift).1.toInt ≤ 32767 ∧
        -32767 ≤ (twiddleWeights m tw jp inv shift).2.toInt ∧ (twiddleWeights m tw jp inv shift).2.toInt ≤ 32767) ∧
    ∀ a b : Word, -32767 ≤ a.toInt →
      (fixMpy a b).toInt = (a.toInt * b.toInt + 16384) / 32768 ∧ -32767 ≤ (fixMpy a b).toInt ∧
        (fixMpy a b).toInt ≤ 32767

/-- With TRUNC, HALVE(x) is x/2 for even x, (x-1)/2 for odd positive x and (x+1)/2 for odd negative x; with FLOOR it is
floor(x/2). They differ exactly on odd negative x, where FLOOR gives one less. The result lies in -16384 to 16383 in
both modes. With TRUNC HALVE commutes with negation for every x but -32768; with FLOOR it does not for odd x. The
hardware's mode, which the block holds after reset, is TRUNC. (R123) -/
def Obligations.HalveRoundsByMode : Prop :=
  State.reset.halveMode = .trunc ∧
    ∀ x : Word,
      (x.toInt % 2 = 0 → 2 * (halve .trunc x).toInt = x.toInt) ∧
      (x.toInt % 2 = 1 → 0 < x.toInt → 2 * (halve .trunc x).toInt = x.toInt - 1) ∧
      (x.toInt % 2 = 1 → x.toInt < 0 → 2 * (halve .trunc x).toInt = x.toInt + 1) ∧
      (halve .floor x).toInt = x.toInt / 2 ∧
      ((halve .trunc x ≠ halve .floor x) ↔ (x.toInt % 2 = 1 ∧ x.toInt < 0)) ∧
      (x.toInt % 2 = 1 → x.toInt < 0 → (halve .floor x).toInt = (halve .trunc x).toInt - 1) ∧
      (∀ m : HalveMode, -16384 ≤ (halve m x).toInt ∧ (halve m x).toInt ≤ 16383) ∧
      (x.toInt ≠ -32768 → halve .trunc (neg16 x) = neg16 (halve .trunc x)) ∧
      (x.toInt % 2 = 1 → halve .floor (neg16 x) ≠ neg16 (halve .floor x))

/-- ADD16(x, y) and SUB16(x, y) have the values of x + y and x - y wrapped to 16 bits, never saturated, and for all
integers the wrapped sums, differences and negations of wrapped values are the wrapped exact expressions, so any
chain equals wrap16 of the exact integer expression. (R125) -/
def Obligations.AddSubtractWrapSilently : Prop :=
  (∀ x y : Word,
      (add16 x y).toInt = (x.toInt + y.toInt + 32768) % 65536 - 32768 ∧
        (sub16 x y).toInt = (x.toInt - y.toInt + 32768) % 65536 - 32768) ∧
    (∀ x y : Int,
      add16 (wrap16 x) (wrap16 y) = wrap16 (x + y) ∧ sub16 (wrap16 x) (wrap16 y) = wrap16 (x - y) ∧
        neg16 (wrap16 x) = wrap16 (-x)) ∧
    ∀ q m1 m2 : Word, add16 q (sub16 m1 m2) = wrap16 (q.toInt + m1.toInt - m2.toInt)

/-- NEG16(x) has the value -x for every x but -32768, where it is -32768; every TW word the engine negates (indices 0 to
511 of the decided ROM) lies in 0 to 32767, so its negation is exact and lies in -32767 to 0. (R124) -/
def Obligations.NegationOverflowsOnlyAtTheMinimum : Prop :=
  (∀ x : Word, (x.toInt ≠ -32768 → (neg16 x).toInt = -x.toInt) ∧ (x.toInt = -32768 → (neg16 x).toInt = -32768)) ∧
    ∀ k : BitVec 9, 0 ≤ (twSin twiddleRom k).toInt ∧ (twSin twiddleRom k).toInt ≤ 32767 ∧
      (neg16 (twSin twiddleRom k)).toInt = -(twSin twiddleRom k).toInt ∧ -32767 ≤ (neg16 (twSin twiddleRom k)).toInt ∧
      (neg16 (twSin twiddleRom k)).toInt ≤ 0

/-- OOR(v) is 1 exactly when v < -16384 or v > 16383 by signed comparison, and equals bit 15 xor bit 14 of the stored
pattern. (R127) -/
def Obligations.OutOfRangeIsTopBitsDiffer : Prop :=
  ∀ v : Word, (oor v = true ↔ v.toInt < -16384 ∨ 16383 < v.toInt) ∧ oor v = (v.getLsbD 15 ^^ v.getLsbD 14)

/-- If both weights have magnitude at most 32767 and near and far components at most 10922, the four outputs of a
butterfly without halving are the exact sums and differences of the near component and the products. (R186,
43_fft_butterfly_network.md section 4) -/
def Obligations.SmallOperandsNeverWrap : Prop :=
  ∀ wr wi fr fi qr qi : Word,
    |wr.toInt| ≤ 32767 → |wi.toInt| ≤ 32767 → |fr.toInt| ≤ 10922 → |fi.toInt| ≤ 10922 → |qr.toInt| ≤ 10922 →
    |qi.toInt| ≤ 10922 →
    (add16 qr (complexProduct wr wi fr fi).1).toInt =
        qr.toInt + ((fixMpy wr fr).toInt - (fixMpy wi fi).toInt) ∧
      (sub16 qr (complexProduct wr wi fr fi).1).toInt =
        qr.toInt - ((fixMpy wr fr).toInt - (fixMpy wi fi).toInt) ∧
      (add16 qi (complexProduct wr wi fr fi).2).toInt =
        qi.toInt + ((fixMpy wr fi).toInt + (fixMpy wi fr).toInt) ∧
      (sub16 qi (complexProduct wr wi fr fi).2).toInt =
        qi.toInt - ((fixMpy wr fi).toInt + (fixMpy wi fr).toInt)

/-- FIX_MPY(32767, x) equals x for -16383 <= x <= 16384, x + 1 for x <= -16384 and x - 1 for x >= 16385. (R182,
43_fft_butterfly_network.md section 3) -/
def Obligations.UnitWeightIsNearlyIdentity : Prop :=
  ∀ x : Word,
    (-16383 ≤ x.toInt → x.toInt ≤ 16384 → fixMpy 32767#16 x = x) ∧
      (x.toInt ≤ -16384 → (fixMpy 32767#16 x).toInt = x.toInt + 1) ∧
      (16385 ≤ x.toInt → (fixMpy 32767#16 x).toInt = x.toInt - 1)

/-- For every index k and every b from 0 to 9, bit b of the table entry BR[k] equals bit 9-b of k. (R101, R140, R93) -/
def Obligations.BitReversalTableReversesBits : Prop :=
  ∀ (k : Index) (b : Fin 10), (brRead bitReversalRom k).getLsbD b.val = k.getLsbD (9 - b.val)

/-- BR[BR[k]] = k for every k; different indices have different entries; 32 indices are fixed, 496 have a larger entry;
the entries sum to 523776 and the weighted sum of (k+1)*BR[k] is 269745920. (R141,
41_bit_reversal_permutation_unit.md section 1) -/
def Obligations.BitReversalTableIsAnInvolution : Prop :=
  (∀ k : Index, brRead bitReversalRom (brRead bitReversalRom k) = k) ∧
    (∀ k l : Index, brRead bitReversalRom k = brRead bitReversalRom l → k = l) ∧
    ((List.range 1024).filter fun k => (bitrev (BitVec.ofNat 10 k)).toNat = k).length = 32 ∧
    ((List.range 1024).filter fun k => k < (bitrev (BitVec.ofNat 10 k)).toNat).length = 496 ∧
    ((List.range 1024).map fun k => (brRead bitReversalRom (BitVec.ofNat 10 k)).toNat).sum = 523776 ∧
    ((List.range 1024).map fun k => (k + 1) * (brRead bitReversalRom (BitVec.ofNat 10 k)).toNat).sum = 269745920

/-- Range, anchor values, signs, mirror symmetry, antisymmetry, cosine symmetry, monotonicity, determination by the
first 257 entries and the three checksums of the decided twiddle ROM. (R164) -/
def Obligations.TwiddleTableProperties : Prop :=
  let tw : Nat → Int := fun k => (twiddleRom.toList.getD k 0#16).toInt
  (∀ k < 769, -32767 ≤ tw k ∧ tw k ≤ 32767) ∧
    (tw 0 = 0 ∧ tw 256 = 32767 ∧ tw 512 = 0 ∧ tw 768 = -32767 ∧ tw 128 = 23170 ∧ tw 384 = 23170 ∧ tw 640 = -23170 ∧
      tw 64 = 12539 ∧ tw 192 = 30273) ∧
    (∀ k < 769, (k ≤ 512 → 0 ≤ tw k) ∧ (512 ≤ k → tw k ≤ 0)) ∧
    (∀ k < 513, tw (512 - k) = tw k) ∧
    (∀ k < 257, tw (512 + k) = -tw k) ∧
    (∀ k < 257, tw (256 + k) = tw (256 - k)) ∧
    (∀ k < 256, tw k < tw (k + 1)) ∧
    (∀ k < 769, tw k = if k ≤ 256 then tw k else if k ≤ 512 then tw (512 - k) else -tw (k - 512)) ∧
    ((List.range 769).map tw).sum = 5323783 ∧ ((List.range 257).map tw).sum = 5356550 ∧
    ((List.range 769).map fun k : Nat => ((k : Int) + 1) * tw k).sum = -877576216

/-- For a stage from 1 to 10, g below STEP = 2^(10-stage) and t below 512/STEP: the twiddle index is g * 2^(stage-1), at
most 512 - 2^(stage-1); the near index g + 2*STEP*t is at most 1023 - STEP; the far index exists and is the near
index plus STEP. (R74, R102, R103) -/
def Obligations.EngineIndicesStayInRange : Prop :=
  ∀ (stage : BitVec 4) (g : Index) (t : Nat), 1 ≤ stage.toNat → stage.toNat ≤ 10 →
    g.toNat < stepOfStage stage.toNat → t < 512 / stepOfStage stage.toNat →
    (∃ jp, twiddleIndex g stage = some jp ∧ jp.toNat = g.toNat * 2 ^ (stage.toNat - 1) ∧
      jp.toNat ≤ 512 - 2 ^ (stage.toNat - 1)) ∧
      g.toNat + 2 * stepOfStage stage.toNat * t + stepOfStage stage.toNat ≤ 1023 ∧
      (nearIndex (stepOfStage stage.toNat) g.toNat t).toNat = g.toNat + 2 * stepOfStage stage.toNat * t ∧
      ∃ j, farIndex (nearIndex (stepOfStage stage.toNat) g.toNat t) (BitVec.ofNat 11 (stepOfStage stage.toNat)) = some j ∧
        j.toNat = g.toNat + 2 * stepOfStage stage.toNat * t + stepOfStage stage.toNat

/-- For a stage from 1 to 10 with STEP = stepOfStage stage = 2^s, s = 10 - stage: for g < STEP and t < 512/STEP the near
index is g + 2*STEP*t, the far index of a stage pass is the near index plus STEP and is the one BFLY.STEP forms, the
two differ in bit s only, 0 in the near and 1 in the far index. Every index x has a g < STEP and a t < 512/STEP,
namely x mod STEP and x div (2*STEP), and x is the near or far index of (g, t) exactly for these g and t and for bit
s of x being 0 respectively 1. (R103) -/
def Obligations.StagePairsPartitionTheSamples : Prop :=
  ∀ stage : Nat, 1 ≤ stage → stage ≤ 10 →
    let step := stepOfStage stage
    step = 2 ^ (10 - stage) ∧
      (∀ x : Index, x.toNat % step < step ∧ x.toNat / (2 * step) < 512 / step) ∧
      ∀ g t : Nat, g < step → t < 512 / step →
        (nearIndex step g t).toNat = g + 2 * step * t ∧ (passFarIndex step g t).toNat = g + 2 * step * t + step ∧
          farIndex (nearIndex step g t) (BitVec.ofNat 11 step) = some (passFarIndex step g t) ∧
          passFarIndex step g t = nearIndex step g t ^^^ BitVec.ofNat 10 step ∧
          ∀ x : Index,
            (nearIndex step g t = x ↔
              g = x.toNat % step ∧ t = x.toNat / (2 * step) ∧ x.getLsbD (10 - stage) = false) ∧
              (passFarIndex step g t = x ↔
                g = x.toNat % step ∧ t = x.toNat / (2 * step) ∧ x.getLsbD (10 - stage) = true)

/-- With the decided ROM, for every phase index and both halving modes, the cosine weights of the two directions are
equal, and the inverse sine weight is minus the forward one except where FLOOR halves it. Whatever INV is, the
permutation, the range scan, a butterfly at given weights, PERM.STEP, SCAN.STEP and the advance of BFLY.STEP do the
same: their results differ in INV alone. (R185, R181) -/
def Obligations.DirectionsDifferInTheSineSignOnly : Prop :=
  (∀ (m : HalveMode) (jp : BitVec 9) (shift : Bool),
      (twiddleWeights m twiddleRom jp true shift).1 = (twiddleWeights m twiddleRom jp false shift).1 ∧
        (m = .trunc ∨ shift = false →
          (twiddleWeights m twiddleRom jp true shift).2.toInt =
            -(twiddleWeights m twiddleRom jp false shift).2.toInt)) ∧
    ∀ (s : State) (d : Bool),
      permute { s with inv := d } = { permute s with inv := d } ∧ rangeScan { s with inv := d } = rangeScan s ∧
        (∀ (m : HalveMode) (i j : Index) (wr wi : Word) (shift : Bool),
          bfly m i j wr wi shift { s with inv := d } = { bfly m i j wr wi shift s with inv := d }) ∧
        bflyAdvance { s with inv := d } = { bflyAdvance s with inv := d } ∧
        (∀ t, exec .permStep s = .next t → exec .permStep { s with inv := d } = .next { t with inv := d }) ∧
        ∀ t, exec .scanStep s = .next t → exec .scanStep { s with inv := d } = .next { t with inv := d }

/-- Inv holds of State.reset. (R36, R34) -/
def Obligations.ResetStateSatisfiesInv : Prop :=
  Inv State.reset

/-- From every state that satisfies Inv, with any inputs presented, a step that answers a next state leads to a state
that satisfies Inv: canonical memories, ROMs with their contents, and the sequencer registers of the phase. (R36,
R222, R224, R225, R226) -/
def Obligations.StepKeepsInv : Prop :=
  ∀ s t : State, Inv s → step s = .next t → Inv t

/-- Inv implies SCALE at most 10; in SCAN and BFLY STAGE from 1 to 10 and STEP = 2^(10-STAGE), from 1 to 512; in BFLY G
< STEP, I mod 2*STEP = G and I + STEP at most 1023; in DONE STAGE 0 and STEP 1024; TW and BR with their constant
contents. In SCAN and BFLY it also implies the bound of U5: SCALE is at most 11 - STAGE. (R36, U5 of
93_implementation_defined.md) -/
def Obligations.InvGivesSpecInvariants : Prop :=
  ∀ s : State, Inv s →
    s.scale.toNat ≤ 10 ∧
      (s.phase = .scan ∨ s.phase = .bfly →
        1 ≤ s.stage.toNat ∧ s.stage.toNat ≤ 10 ∧ s.step.toNat = 2 ^ (10 - s.stage.toNat) ∧ 1 ≤ s.step.toNat ∧
          s.step.toNat ≤ 512 ∧ s.scale.toNat ≤ 11 - s.stage.toNat) ∧
      (s.phase = .bfly → s.g.toNat < s.step.toNat ∧ s.i.toNat % (2 * s.step.toNat) = s.g.toNat ∧
        s.i.toNat + s.step.toNat ≤ 1023) ∧
      (s.phase = .done → s.stage = 0#4 ∧ s.step = 1024#11) ∧
      s.tw = twiddleRom ∧ s.br = bitReversalRom

/-- From every state that satisfies Inv a step answers a next state unless the host presents an access while busy
without reset, and then it is refused with hostAccessWhileBusy: the engine never stalls and raises nothing. (R220,
R221, R260, R300, R69) -/
def Obligations.StepAnswersWhileHostKeepsExclusion : Prop :=
  ∀ s : State, Inv s →
    (s.hostExcluded = true → ∃ t, step s = .next t) ∧
      (s.hostExcluded = false → step s = .refused .hostAccessWhileBusy)

/-- Two memories of a channel in canonical form that give the same word at every index are the same list. The form is
the model's (log 6). (R68, 20_memory.md section 3) -/
def Obligations.CanonicalMemoriesWithEqualReadsAreEqual : Prop :=
  ∀ (c : Channel) (m m' : Memory), Memory.wf c m → Memory.wf c m' →
    (∀ k, Memory.read c m k = Memory.read c m' k) → m = m'

/-- With the decided BR, after PERMUTE the word at index k of either channel is the word that was at BR[k]. (R144, R141) -/
def Obligations.PermuteReversesIndices : Prop :=
  ∀ (s : State) (c : Channel) (k : Index), s.memWf → s.br = bitReversalRom →
    (permute s).readSample c k = s.readSample c (bitrev k)

/-- With the decided BR, PERMUTE applied twice leaves the two memories exactly as they were. (R145, R144) -/
def Obligations.PermuteIsItsOwnInverse : Prop :=
  ∀ s : State, s.memWf → s.br = bitReversalRom → permute (permute s) = s

/-- RANGE.SCAN is 1 exactly if some word of RE or IM is below -16384 or above 16383; with the decided BR it is the same
before and after PERMUTE, so if every input component is in range stage 10 is not a shift stage in either direction
and either halving mode. (R211, R146) -/
def Obligations.ScanIsExistentialAndOrderFree : Prop :=
  (∀ s : State, rangeScan s = true ↔ ∃ c k, (s.readSample c k).toInt < -16384 ∨ 16383 < (s.readSample c k).toInt) ∧
    (∀ s : State, s.memWf → s.br = bitReversalRom → rangeScan (permute s) = rangeScan s) ∧
    ∀ (s : State) (m : HalveMode) (d : Bool), s.memWf → s.br = bitReversalRom →
      (∀ c k, -16384 ≤ (s.readSample c k).toInt ∧ (s.readSample c k).toInt ≤ 16383) →
      (transformShifts m d s).head? = some false

/-- For every state, direction and halving mode a transform has ten shift decisions and its SCALE is the number of those
that are 1, hence 0 to 10. (R212, R215, R219) -/
def Obligations.ScaleCountsShiftStages : Prop :=
  ∀ (m : HalveMode) (d : Bool) (s : State),
    (transformShifts m d s).length = 10 ∧
      (transformWith m d s).scale.toNat = (transformShifts m d s).count true

/-- If every word of RE and IM is 0, then after TRANSFORM every word is 0 and SCALE is 0, in both directions and both
halving modes, whatever the ROMs hold. (R216, R219) -/
def Obligations.ZeroSignalTransformsToZero : Prop :=
  ∀ (m : HalveMode) (d : Bool) (s : State), s.memWf → (∀ c k, s.readSample c k = 0#16) →
    (∀ c k, (transformWith m d s).readSample c k = 0#16) ∧ (transformWith m d s).scale = 0#4

/-- With the decided ROM the butterfly pass of stage 10 computes the same state in both directions, on a shift stage or
not. (R183, 43_fft_butterfly_network.md section 4) -/
def Obligations.FirstStageIsDirectionFree : Prop :=
  ∀ (m : HalveMode) (shift : Bool) (s : State), s.tw = twiddleRom →
    stagePass m 10 true shift s = stagePass m 10 false shift s

/-- For four different indices, two butterflies on the pairs (i, j) and (k, l) give the same state in either order,
whatever their weights. (R184, 43_fft_butterfly_network.md section 4) -/
def Obligations.DisjointButterfliesCommute : Prop :=
  ∀ (m : HalveMode) (shift : Bool) (s : State) (i j k l : Index) (wr wi vr vi : Word), s.memWf →
    [i, j, k, l].Nodup →
    bfly m i j wr wi shift (bfly m k l vr vi shift s) = bfly m k l vr vi shift (bfly m i j wr wi shift s)

/-- If two states read alike in RE and IM and have the same TW and BR, then TRANSFORM in the same direction and mode
gives states that read alike and have the same SCALE, whatever their registers, inputs and read data were. (R236,
R216) -/
def Obligations.TransformDependsOnSamplesOnly : Prop :=
  ∀ (m : HalveMode) (d : Bool) (s s' : State), s.memWf → s'.memWf → s.sameSamples s' → s.sameRoms s' →
    (transformWith m d s).sameSamples (transformWith m d s') ∧
      (transformWith m d s').scale = (transformWith m d s).scale

/-- From any state in IDLE or DONE with register values the spec gives a meaning, whatever RE and IM hold: if the first
inputs present start with inverse = d and no reset or access, and the next 16384 inputs present no reset and no
access (start and inverse free), then 16385 steps lead to phase DONE with RE, IM and SCALE equal to those of
TRANSFORM(d) in the block's HALVE_MODE. (R229) -/
def Obligations.MicroStepsComputeTransform : Prop :=
  ∀ (s : State) (p : HostInput) (ps : List HostInput), s.busy = false → s.registersDefined = true → s.host = p :: ps →
    p.start = true → p.undisturbing = true → (∀ q ∈ ps.take 16384, q.undisturbing = true) →
    ∃ t : State, Sys2Proof.core.run 16385 s = .next t ∧ t.phase = .done ∧ t.re = (transform p.inverse s).re ∧
      t.im = (transform p.inverse s).im ∧ t.scale = (transform p.inverse s).scale

/-- Under the same conditions every prefix of 1 to 16384 steps answers a next state with busy = 1 and done = 0, and
16385 steps answer a next state with busy = 0 and done = 1, whatever the data. (R220, R221, R304) -/
def Obligations.TransformIsBusyUntilDone : Prop :=
  ∀ (s : State) (p : HostInput) (ps : List HostInput), s.busy = false → s.registersDefined = true → s.host = p :: ps →
    p.start = true → p.undisturbing = true → (∀ q ∈ ps.take 16384, q.undisturbing = true) →
    (∀ n : Nat, 1 ≤ n → n ≤ 16384 →
      ∃ t : State, Sys2Proof.core.run n s = .next t ∧ t.busy = true ∧ t.doneOut = false) ∧
    ∃ t : State, Sys2Proof.core.run 16385 s = .next t ∧ t.busy = false ∧ t.doneOut = true

/-- From a state in IDLE or DONE whose next inputs are the expansion of CLEAR, 2048 steps lead to a state in which every
word of both memories is 0, the remaining inputs stand, and every register and both ROMs are unchanged. That an
input lasts one micro-step, so that the remaining inputs stand, is the model's choice (log 2). (R105, R230, R294) -/
def Obligations.ClearScriptZeroesEveryWord : Prop :=
  ∀ (s : State) (rest : List HostInput), s.memWf → s.busy = false → s.registersDefined = true →
    s.host = Sys2Proof.Machine.clear ++ rest →
    ∃ t : State, Sys2Proof.core.run 2048 s = .next t ∧ (∀ c k, t.readSample c k = 0#16) ∧ s.sameRegisters t ∧
      s.sameRoms t ∧ t.host = rest

/-- For a stage from 1 to 10, g < STEP and t < 512/STEP, in both halving modes: after STAGE.PASS the near word is the
halved (on a shift stage) near word plus the weighted far word and the far word is near minus weighted far, in both
channels, all of them words of the state the pass began with and with the weights of TWIDDLE for g. No register, ROM
or port changes. (R183, R184, 43_fft_butterfly_network.md section 4) -/
def Obligations.StagePassComputesEveryButterfly : Prop :=
  ∀ (m : HalveMode) (stage g t : Nat) (inv shift : Bool) (s : State), s.memWf → 1 ≤ stage → stage ≤ 10 →
    g < stepOfStage stage → t < 512 / stepOfStage stage →
    let i := nearIndex (stepOfStage stage) g t
    let j := passFarIndex (stepOfStage stage) g t
    let w := twiddleWeights m s.tw (passIndex stage g) inv shift
    let p := complexProduct w.1 w.2 (s.readSample .re j) (s.readSample .im j)
    let u := stagePass m stage inv shift s
    u.readSample .re i = add16 (passThrough m shift (s.readSample .re i)) p.1 ∧
      u.readSample .im i = add16 (passThrough m shift (s.readSample .im i)) p.2 ∧
      u.readSample .re j = sub16 (passThrough m shift (s.readSample .re i)) p.1 ∧
      u.readSample .im j = sub16 (passThrough m shift (s.readSample .im i)) p.2 ∧
      s.sameRegisters u ∧ s.sameRoms u ∧ s.samePorts u ∧ u.halveMode = s.halveMode

/-- For a twiddle ROM without the word -32768 (the decided ROM is one) and a state whose samples all have magnitude at
most 10922: after a stage pass without shift every near word is exactly near + (product) and every far word exactly
near - (product), in integers, the product being the two FIX_MPY results combined exactly. (R186,
43_fft_butterfly_network.md section 4) -/
def Obligations.StageOfSmallSamplesNeverWraps : Prop :=
  ∀ (m : HalveMode) (stage g t : Nat) (inv : Bool) (s : State), s.memWf →
    (∀ k : Fin 769, (s.tw[k.val]'k.isLt).toInt ≠ -32768) → (∀ c k, |(s.readSample c k).toInt| ≤ 10922) →
    1 ≤ stage → stage ≤ 10 → g < stepOfStage stage → t < 512 / stepOfStage stage →
    let i := nearIndex (stepOfStage stage) g t
    let j := passFarIndex (stepOfStage stage) g t
    let w := twiddleWeights m s.tw (passIndex stage g) inv false
    let tr := (fixMpy w.1 (s.readSample .re j)).toInt - (fixMpy w.2 (s.readSample .im j)).toInt
    let ti := (fixMpy w.1 (s.readSample .im j)).toInt + (fixMpy w.2 (s.readSample .re j)).toInt
    let u := stagePass m stage inv false s
    (u.readSample .re i).toInt = (s.readSample .re i).toInt + tr ∧
      (u.readSample .im i).toInt = (s.readSample .im i).toInt + ti ∧
      (u.readSample .re j).toInt = (s.readSample .re i).toInt - tr ∧
      (u.readSample .im j).toInt = (s.readSample .im i).toInt - ti
end

