-- ==== Sys2Proof/Laws/State.lean ====
section
/-! SUPPORT. What each update leaves in each field of the state, one lemma per field, so that no proof unfolds a record
update. A field whose new value depends on a case has its lemmas under `Laws/Ops.lean`. -/

namespace Sys2Proof.Machine

/-! ## `popInput`, `setHrdata` -/

@[simp] theorem popInput_re (s : State) : (s.popInput).re = s.re := rfl
@[simp] theorem popInput_im (s : State) : (s.popInput).im = s.im := rfl
@[simp] theorem popInput_tw (s : State) : (s.popInput).tw = s.tw := rfl
@[simp] theorem popInput_br (s : State) : (s.popInput).br = s.br := rfl
@[simp] theorem popInput_scale (s : State) : (s.popInput).scale = s.scale := rfl
@[simp] theorem popInput_inv (s : State) : (s.popInput).inv = s.inv := rfl
@[simp] theorem popInput_shift (s : State) : (s.popInput).shift = s.shift := rfl
@[simp] theorem popInput_phase (s : State) : (s.popInput).phase = s.phase := rfl
@[simp] theorem popInput_idx (s : State) : (s.popInput).idx = s.idx := rfl
@[simp] theorem popInput_stage (s : State) : (s.popInput).stage = s.stage := rfl
@[simp] theorem popInput_step (s : State) : (s.popInput).step = s.step := rfl
@[simp] theorem popInput_g (s : State) : (s.popInput).g = s.g := rfl
@[simp] theorem popInput_i (s : State) : (s.popInput).i = s.i := rfl
@[simp] theorem popInput_hrdata (s : State) : (s.popInput).hrdata = s.hrdata := rfl
@[simp] theorem popInput_host (s : State) : (s.popInput).host = s.host.tail := rfl
@[simp] theorem popInput_halveMode (s : State) : s.popInput.halveMode = s.halveMode := rfl

@[simp] theorem setHrdata_re (v : Option Word) (s : State) : (s.setHrdata v).re = s.re := rfl
@[simp] theorem setHrdata_im (v : Option Word) (s : State) : (s.setHrdata v).im = s.im := rfl
@[simp] theorem setHrdata_tw (v : Option Word) (s : State) : (s.setHrdata v).tw = s.tw := rfl
@[simp] theorem setHrdata_br (v : Option Word) (s : State) : (s.setHrdata v).br = s.br := rfl
@[simp] theorem setHrdata_scale (v : Option Word) (s : State) : (s.setHrdata v).scale = s.scale := rfl
@[simp] theorem setHrdata_inv (v : Option Word) (s : State) : (s.setHrdata v).inv = s.inv := rfl
@[simp] theorem setHrdata_shift (v : Option Word) (s : State) : (s.setHrdata v).shift = s.shift := rfl
@[simp] theorem setHrdata_phase (v : Option Word) (s : State) : (s.setHrdata v).phase = s.phase := rfl
@[simp] theorem setHrdata_idx (v : Option Word) (s : State) : (s.setHrdata v).idx = s.idx := rfl
@[simp] theorem setHrdata_stage (v : Option Word) (s : State) : (s.setHrdata v).stage = s.stage := rfl
@[simp] theorem setHrdata_step (v : Option Word) (s : State) : (s.setHrdata v).step = s.step := rfl
@[simp] theorem setHrdata_g (v : Option Word) (s : State) : (s.setHrdata v).g = s.g := rfl
@[simp] theorem setHrdata_i (v : Option Word) (s : State) : (s.setHrdata v).i = s.i := rfl
@[simp] theorem setHrdata_hrdata (v : Option Word) (s : State) : (s.setHrdata v).hrdata = v := rfl
@[simp] theorem setHrdata_host (v : Option Word) (s : State) : (s.setHrdata v).host = s.host := rfl
@[simp] theorem setHrdata_halveMode (v : Option Word) (s : State) : (s.setHrdata v).halveMode = s.halveMode := rfl

/-! ## `START` and `reset` -/

@[simp] theorem startTransform_re (inverse : Bool) (s : State) : (s.startTransform inverse).re = s.re := rfl
@[simp] theorem startTransform_im (inverse : Bool) (s : State) : (s.startTransform inverse).im = s.im := rfl
@[simp] theorem startTransform_tw (inverse : Bool) (s : State) : (s.startTransform inverse).tw = s.tw := rfl
@[simp] theorem startTransform_br (inverse : Bool) (s : State) : (s.startTransform inverse).br = s.br := rfl
@[simp] theorem startTransform_scale (inverse : Bool) (s : State) : (s.startTransform inverse).scale = 0#4 := rfl
@[simp] theorem startTransform_inv (inverse : Bool) (s : State) : (s.startTransform inverse).inv = inverse := rfl
@[simp] theorem startTransform_shift (inverse : Bool) (s : State) : (s.startTransform inverse).shift = false := rfl
@[simp] theorem startTransform_phase (inverse : Bool) (s : State) : (s.startTransform inverse).phase = .perm := rfl
@[simp] theorem startTransform_idx (inverse : Bool) (s : State) : (s.startTransform inverse).idx = 0#10 := rfl
@[simp] theorem startTransform_stage (inverse : Bool) (s : State) : (s.startTransform inverse).stage = 10#4 := rfl
@[simp] theorem startTransform_step (inverse : Bool) (s : State) : (s.startTransform inverse).step = 1#11 := rfl
@[simp] theorem startTransform_g (inverse : Bool) (s : State) : (s.startTransform inverse).g = 0#10 := rfl
@[simp] theorem startTransform_i (inverse : Bool) (s : State) : (s.startTransform inverse).i = 0#10 := rfl
@[simp] theorem startTransform_hrdata (inverse : Bool) (s : State) : (s.startTransform inverse).hrdata = s.hrdata := rfl
@[simp] theorem startTransform_host (inverse : Bool) (s : State) : (s.startTransform inverse).host = s.host := rfl
@[simp] theorem startTransform_halveMode (inverse : Bool) (s : State) : (s.startTransform inverse).halveMode = s.halveMode := rfl

@[simp] theorem applyReset_re (s : State) : (s.applyReset).re = s.re := rfl
@[simp] theorem applyReset_im (s : State) : (s.applyReset).im = s.im := rfl
@[simp] theorem applyReset_tw (s : State) : (s.applyReset).tw = s.tw := rfl
@[simp] theorem applyReset_br (s : State) : (s.applyReset).br = s.br := rfl
@[simp] theorem applyReset_scale (s : State) : (s.applyReset).scale = 0#4 := rfl
@[simp] theorem applyReset_inv (s : State) : (s.applyReset).inv = false := rfl
@[simp] theorem applyReset_shift (s : State) : (s.applyReset).shift = false := rfl
@[simp] theorem applyReset_phase (s : State) : (s.applyReset).phase = .idle := rfl
@[simp] theorem applyReset_idx (s : State) : (s.applyReset).idx = 0#10 := rfl
@[simp] theorem applyReset_stage (s : State) : (s.applyReset).stage = 0#4 := rfl
@[simp] theorem applyReset_step (s : State) : (s.applyReset).step = 1#11 := rfl
@[simp] theorem applyReset_g (s : State) : (s.applyReset).g = 0#10 := rfl
@[simp] theorem applyReset_i (s : State) : (s.applyReset).i = 0#10 := rfl
@[simp] theorem applyReset_hrdata (s : State) : (s.applyReset).hrdata = none := rfl
@[simp] theorem applyReset_host (s : State) : (s.applyReset).host = s.host := rfl
@[simp] theorem applyReset_halveMode (s : State) : (s.applyReset).halveMode = s.halveMode := rfl

/-! ## The state after reset -/

@[simp] theorem reset_re : State.reset.re = [] := rfl
@[simp] theorem reset_im : State.reset.im = [] := rfl
@[simp] theorem reset_tw : State.reset.tw = twiddleRom := rfl
@[simp] theorem reset_br : State.reset.br = bitReversalRom := rfl
@[simp] theorem reset_scale : State.reset.scale = 0#4 := rfl
@[simp] theorem reset_inv : State.reset.inv = false := rfl
@[simp] theorem reset_shift : State.reset.shift = false := rfl
@[simp] theorem reset_phase : State.reset.phase = .idle := rfl
@[simp] theorem reset_idx : State.reset.idx = 0#10 := rfl
@[simp] theorem reset_stage : State.reset.stage = 0#4 := rfl
@[simp] theorem reset_step : State.reset.step = 1#11 := rfl
@[simp] theorem reset_g : State.reset.g = 0#10 := rfl
@[simp] theorem reset_i : State.reset.i = 0#10 := rfl
@[simp] theorem reset_hrdata : State.reset.hrdata = none := rfl
@[simp] theorem reset_host : State.reset.host = [] := rfl
@[simp] theorem reset_halveMode : State.reset.halveMode = .trunc := rfl

/-! ## Writes of one sample word -/

@[simp] theorem writeSample_tw (c : Channel) (k : Index) (v : Word) (s : State) :
    (s.writeSample c k v).tw = s.tw := by cases c <;> rfl
@[simp] theorem writeSample_br (c : Channel) (k : Index) (v : Word) (s : State) :
    (s.writeSample c k v).br = s.br := by cases c <;> rfl
@[simp] theorem writeSample_scale (c : Channel) (k : Index) (v : Word) (s : State) :
    (s.writeSample c k v).scale = s.scale := by cases c <;> rfl
@[simp] theorem writeSample_inv (c : Channel) (k : Index) (v : Word) (s : State) :
    (s.writeSample c k v).inv = s.inv := by cases c <;> rfl
@[simp] theorem writeSample_shift (c : Channel) (k : Index) (v : Word) (s : State) :
    (s.writeSample c k v).shift = s.shift := by cases c <;> rfl
@[simp] theorem writeSample_phase (c : Channel) (k : Index) (v : Word) (s : State) :
    (s.writeSample c k v).phase = s.phase := by cases c <;> rfl
@[simp] theorem writeSample_idx (c : Channel) (k : Index) (v : Word) (s : State) :
    (s.writeSample c k v).idx = s.idx := by cases c <;> rfl
@[simp] theorem writeSample_stage (c : Channel) (k : Index) (v : Word) (s : State) :
    (s.writeSample c k v).stage = s.stage := by cases c <;> rfl
@[simp] theorem writeSample_step (c : Channel) (k : Index) (v : Word) (s : State) :
    (s.writeSample c k v).step = s.step := by cases c <;> rfl
@[simp] theorem writeSample_g (c : Channel) (k : Index) (v : Word) (s : State) :
    (s.writeSample c k v).g = s.g := by cases c <;> rfl
@[simp] theorem writeSample_i (c : Channel) (k : Index) (v : Word) (s : State) :
    (s.writeSample c k v).i = s.i := by cases c <;> rfl
@[simp] theorem writeSample_hrdata (c : Channel) (k : Index) (v : Word) (s : State) :
    (s.writeSample c k v).hrdata = s.hrdata := by cases c <;> rfl
@[simp] theorem writeSample_host (c : Channel) (k : Index) (v : Word) (s : State) :
    (s.writeSample c k v).host = s.host := by cases c <;> rfl
@[simp] theorem writeSample_halveMode (c : Channel) (k : Index) (v : Word) (s : State) :
    (s.writeSample c k v).halveMode = s.halveMode := by cases c <;> rfl
@[simp] theorem writeSample_re_re (k : Index) (v : Word) (s : State) :
    (s.writeSample .re k v).re = Memory.write .re s.re k v := rfl
@[simp] theorem writeSample_re_im (k : Index) (v : Word) (s : State) : (s.writeSample .re k v).im = s.im := rfl
@[simp] theorem writeSample_im_re (k : Index) (v : Word) (s : State) : (s.writeSample .im k v).re = s.re := rfl
@[simp] theorem writeSample_im_im (k : Index) (v : Word) (s : State) :
    (s.writeSample .im k v).im = Memory.write .im s.im k v := rfl

/-! ## The permutation and the butterfly: the fields they leave alone -/

@[simp] theorem permSwap_tw (k : Index) (s : State) : (permSwap k s).tw = s.tw := by
  unfold permSwap; dsimp only; split <;> simp
@[simp] theorem permSwap_br (k : Index) (s : State) : (permSwap k s).br = s.br := by
  unfold permSwap; dsimp only; split <;> simp
@[simp] theorem permSwap_scale (k : Index) (s : State) : (permSwap k s).scale = s.scale := by
  unfold permSwap; dsimp only; split <;> simp
@[simp] theorem permSwap_inv (k : Index) (s : State) : (permSwap k s).inv = s.inv := by
  unfold permSwap; dsimp only; split <;> simp
@[simp] theorem permSwap_shift (k : Index) (s : State) : (permSwap k s).shift = s.shift := by
  unfold permSwap; dsimp only; split <;> simp
@[simp] theorem permSwap_phase (k : Index) (s : State) : (permSwap k s).phase = s.phase := by
  unfold permSwap; dsimp only; split <;> simp
@[simp] theorem permSwap_idx (k : Index) (s : State) : (permSwap k s).idx = s.idx := by
  unfold permSwap; dsimp only; split <;> simp
@[simp] theorem permSwap_stage (k : Index) (s : State) : (permSwap k s).stage = s.stage := by
  unfold permSwap; dsimp only; split <;> simp
@[simp] theorem permSwap_step (k : Index) (s : State) : (permSwap k s).step = s.step := by
  unfold permSwap; dsimp only; split <;> simp
@[simp] theorem permSwap_g (k : Index) (s : State) : (permSwap k s).g = s.g := by
  unfold permSwap; dsimp only; split <;> simp
@[simp] theorem permSwap_i (k : Index) (s : State) : (permSwap k s).i = s.i := by
  unfold permSwap; dsimp only; split <;> simp
@[simp] theorem permSwap_hrdata (k : Index) (s : State) : (permSwap k s).hrdata = s.hrdata := by
  unfold permSwap; dsimp only; split <;> simp
@[simp] theorem permSwap_host (k : Index) (s : State) : (permSwap k s).host = s.host := by
  unfold permSwap; dsimp only; split <;> simp
@[simp] theorem permSwap_halveMode (k : Index) (s : State) : (permSwap k s).halveMode = s.halveMode := by
  unfold permSwap; dsimp only; split <;> simp

@[simp] theorem bfly_tw (m : HalveMode) (i j : Index) (wr wi : Word) (sh : Bool) (s : State) :
    (bfly m i j wr wi sh s).tw = s.tw := by simp [bfly]
@[simp] theorem bfly_br (m : HalveMode) (i j : Index) (wr wi : Word) (sh : Bool) (s : State) :
    (bfly m i j wr wi sh s).br = s.br := by simp [bfly]
@[simp] theorem bfly_scale (m : HalveMode) (i j : Index) (wr wi : Word) (sh : Bool) (s : State) :
    (bfly m i j wr wi sh s).scale = s.scale := by simp [bfly]
@[simp] theorem bfly_inv (m : HalveMode) (i j : Index) (wr wi : Word) (sh : Bool) (s : State) :
    (bfly m i j wr wi sh s).inv = s.inv := by simp [bfly]
@[simp] theorem bfly_shift (m : HalveMode) (i j : Index) (wr wi : Word) (sh : Bool) (s : State) :
    (bfly m i j wr wi sh s).shift = s.shift := by simp [bfly]
@[simp] theorem bfly_phase (m : HalveMode) (i j : Index) (wr wi : Word) (sh : Bool) (s : State) :
    (bfly m i j wr wi sh s).phase = s.phase := by simp [bfly]
@[simp] theorem bfly_idx (m : HalveMode) (i j : Index) (wr wi : Word) (sh : Bool) (s : State) :
    (bfly m i j wr wi sh s).idx = s.idx := by simp [bfly]
@[simp] theorem bfly_stage (m : HalveMode) (i j : Index) (wr wi : Word) (sh : Bool) (s : State) :
    (bfly m i j wr wi sh s).stage = s.stage := by simp [bfly]
@[simp] theorem bfly_step (m : HalveMode) (i j : Index) (wr wi : Word) (sh : Bool) (s : State) :
    (bfly m i j wr wi sh s).step = s.step := by simp [bfly]
@[simp] theorem bfly_g (m : HalveMode) (i j : Index) (wr wi : Word) (sh : Bool) (s : State) :
    (bfly m i j wr wi sh s).g = s.g := by simp [bfly]
@[simp] theorem bfly_i (m : HalveMode) (i j : Index) (wr wi : Word) (sh : Bool) (s : State) :
    (bfly m i j wr wi sh s).i = s.i := by simp [bfly]
@[simp] theorem bfly_hrdata (m : HalveMode) (i j : Index) (wr wi : Word) (sh : Bool) (s : State) :
    (bfly m i j wr wi sh s).hrdata = s.hrdata := by simp [bfly]
@[simp] theorem bfly_host (m : HalveMode) (i j : Index) (wr wi : Word) (sh : Bool) (s : State) :
    (bfly m i j wr wi sh s).host = s.host := by simp [bfly]
@[simp] theorem bfly_halveMode (m : HalveMode) (i j : Index) (wr wi : Word) (sh : Bool) (s : State) :
    (bfly m i j wr wi sh s).halveMode = s.halveMode := by simp [bfly]

/-! ## The advance of the counters: the fields it leaves alone -/

@[simp] theorem permAdvance_re (s : State) : (permAdvance s).re = s.re := by
  unfold permAdvance; (repeat' split) <;> rfl
@[simp] theorem permAdvance_im (s : State) : (permAdvance s).im = s.im := by
  unfold permAdvance; (repeat' split) <;> rfl
@[simp] theorem permAdvance_tw (s : State) : (permAdvance s).tw = s.tw := by
  unfold permAdvance; (repeat' split) <;> rfl
@[simp] theorem permAdvance_br (s : State) : (permAdvance s).br = s.br := by
  unfold permAdvance; (repeat' split) <;> rfl
@[simp] theorem permAdvance_scale (s : State) : (permAdvance s).scale = s.scale := by
  unfold permAdvance; (repeat' split) <;> rfl
@[simp] theorem permAdvance_inv (s : State) : (permAdvance s).inv = s.inv := by
  unfold permAdvance; (repeat' split) <;> rfl
@[simp] theorem permAdvance_g (s : State) : (permAdvance s).g = s.g := by
  unfold permAdvance; (repeat' split) <;> rfl
@[simp] theorem permAdvance_i (s : State) : (permAdvance s).i = s.i := by
  unfold permAdvance; (repeat' split) <;> rfl
@[simp] theorem permAdvance_hrdata (s : State) : (permAdvance s).hrdata = s.hrdata := by
  unfold permAdvance; (repeat' split) <;> rfl
@[simp] theorem permAdvance_host (s : State) : (permAdvance s).host = s.host := by
  unfold permAdvance; (repeat' split) <;> rfl
@[simp] theorem permAdvance_halveMode (s : State) : (permAdvance s).halveMode = s.halveMode := by
  unfold permAdvance; (repeat' split) <;> rfl

@[simp] theorem scanAdvance_re (s : State) : (scanAdvance s).re = s.re := by
  unfold scanAdvance; (repeat' split) <;> rfl
@[simp] theorem scanAdvance_im (s : State) : (scanAdvance s).im = s.im := by
  unfold scanAdvance; (repeat' split) <;> rfl
@[simp] theorem scanAdvance_tw (s : State) : (scanAdvance s).tw = s.tw := by
  unfold scanAdvance; (repeat' split) <;> rfl
@[simp] theorem scanAdvance_br (s : State) : (scanAdvance s).br = s.br := by
  unfold scanAdvance; (repeat' split) <;> rfl
@[simp] theorem scanAdvance_inv (s : State) : (scanAdvance s).inv = s.inv := by
  unfold scanAdvance; (repeat' split) <;> rfl
@[simp] theorem scanAdvance_stage (s : State) : (scanAdvance s).stage = s.stage := by
  unfold scanAdvance; (repeat' split) <;> rfl
@[simp] theorem scanAdvance_step (s : State) : (scanAdvance s).step = s.step := by
  unfold scanAdvance; (repeat' split) <;> rfl
@[simp] theorem scanAdvance_hrdata (s : State) : (scanAdvance s).hrdata = s.hrdata := by
  unfold scanAdvance; (repeat' split) <;> rfl
@[simp] theorem scanAdvance_host (s : State) : (scanAdvance s).host = s.host := by
  unfold scanAdvance; (repeat' split) <;> rfl
@[simp] theorem scanAdvance_halveMode (s : State) : (scanAdvance s).halveMode = s.halveMode := by
  unfold scanAdvance; (repeat' split) <;> rfl

@[simp] theorem bflyAdvance_re (s : State) : (bflyAdvance s).re = s.re := by
  unfold bflyAdvance; (repeat' split) <;> rfl
@[simp] theorem bflyAdvance_im (s : State) : (bflyAdvance s).im = s.im := by
  unfold bflyAdvance; (repeat' split) <;> rfl
@[simp] theorem bflyAdvance_tw (s : State) : (bflyAdvance s).tw = s.tw := by
  unfold bflyAdvance; (repeat' split) <;> rfl
@[simp] theorem bflyAdvance_br (s : State) : (bflyAdvance s).br = s.br := by
  unfold bflyAdvance; (repeat' split) <;> rfl
@[simp] theorem bflyAdvance_scale (s : State) : (bflyAdvance s).scale = s.scale := by
  unfold bflyAdvance; (repeat' split) <;> rfl
@[simp] theorem bflyAdvance_inv (s : State) : (bflyAdvance s).inv = s.inv := by
  unfold bflyAdvance; (repeat' split) <;> rfl
@[simp] theorem bflyAdvance_hrdata (s : State) : (bflyAdvance s).hrdata = s.hrdata := by
  unfold bflyAdvance; (repeat' split) <;> rfl
@[simp] theorem bflyAdvance_host (s : State) : (bflyAdvance s).host = s.host := by
  unfold bflyAdvance; (repeat' split) <;> rfl
@[simp] theorem bflyAdvance_halveMode (s : State) : (bflyAdvance s).halveMode = s.halveMode := by
  unfold bflyAdvance; (repeat' split) <;> rfl

end Sys2Proof.Machine
end

