-- ==== Sys2Proof/Laws/Memory.lean ====
section
/-! SUPPORT. The laws of one sample memory: a read after a write, the canonical form that every write keeps, and that
equal reads of canonical memories mean equal memories. Then the same laws at the level of the state. -/

namespace Sys2Proof.Machine

namespace Memory

/-! ## Finding a cell -/

theorem find_insertCell_self (m : Memory) (k : Nat) (v : Word) : find (insertCell m k v) k = some v := by
  induction m with
  | nil => simp [insertCell, find]
  | cons e rest ih =>
    obtain ⟨a, x⟩ := e
    unfold insertCell
    split
    · simp [find]
    · split
      · simp [find]
      · rename_i h1 h2
        simp [find, show a ≠ k from fun h => h2 h.symm, ih]

theorem find_insertCell_other {k l : Nat} (h : l ≠ k) (m : Memory) (v : Word) :
    find (insertCell m k v) l = find m l := by
  induction m with
  | nil => simp [insertCell, find, Ne.symm h]
  | cons e rest ih =>
    obtain ⟨a, x⟩ := e
    unfold insertCell
    split
    · simp [find, Ne.symm h]
    · split
      · rename_i h1 h2
        subst h2
        simp [find, Ne.symm h]
      · simp [find, ih]

theorem find_eraseCell_other {k l : Nat} (h : l ≠ k) (m : Memory) : find (eraseCell m k) l = find m l := by
  induction m with
  | nil => rfl
  | cons e rest ih =>
    obtain ⟨a, x⟩ := e
    unfold eraseCell
    split
    · rename_i h1
      subst h1
      simp [find, Ne.symm h]
    · simp [find, ih]

theorem find_eq_none_of_lt {m : Memory} {k : Nat} (h : ∀ e ∈ m, k < e.1) : find m k = none := by
  induction m with
  | nil => rfl
  | cons e rest ih =>
    have h1 := h e (by simp)
    simp [find, show e.1 ≠ k by omega, ih fun e' he' => h e' (by simp [he'])]

theorem find_eraseCell_self {m : Memory} (h : m.Pairwise fun a b => a.1 < b.1) (k : Nat) :
    find (eraseCell m k) k = none := by
  induction m with
  | nil => rfl
  | cons e rest ih =>
    obtain ⟨a, x⟩ := e
    rw [List.pairwise_cons] at h
    unfold eraseCell
    split
    · rename_i h1
      exact find_eq_none_of_lt fun e' he' => by have := h.1 e' he'; simpa [h1] using this
    · rename_i h1
      simp [find, h1, ih h.2]

theorem mem_of_find {m : Memory} {k : Nat} {v : Word} (h : find m k = some v) : (k, v) ∈ m := by
  induction m with
  | nil => simp [find] at h
  | cons e rest ih =>
    obtain ⟨a, x⟩ := e
    unfold find at h
    split at h
    · rename_i h1
      simp_all
    · exact List.mem_cons_of_mem _ (ih h)

theorem find_of_mem {m : Memory} (hp : m.Pairwise fun a b => a.1 < b.1) {e : Nat × Word} (h : e ∈ m) :
    find m e.1 = some e.2 := by
  induction m with
  | nil => simp at h
  | cons f rest ih =>
    obtain ⟨a, x⟩ := f
    rw [List.pairwise_cons] at hp
    rcases List.mem_cons.1 h with h | h
    · simp [h, find]
    · have := hp.1 e h
      simp [find, show a ≠ e.1 by simp at this; omega, ih hp.2 h]

/-! ## Reading and writing -/

theorem read_write_self {c : Channel} {m : Memory} (h : Memory.wf c m) (k : Index) (v : Word) :
    read c (write c m k v) k = v := by
  unfold write
  split
  · rename_i h1
    simp [read, find_eraseCell_self h.1, h1]
  · simp [read, find_insertCell_self]

theorem read_write_other {k l : Index} (h : l ≠ k) (c : Channel) (m : Memory) (v : Word) :
    read c (write c m k v) l = read c m l := by
  have h' : l.toNat ≠ k.toNat := fun e => h (BitVec.eq_of_toNat_eq e)
  unfold write
  split
  · simp [read, find_eraseCell_other h']
  · simp [read, find_insertCell_other h']

/-! ## The canonical form -/

theorem mem_insertCell {m : Memory} {k : Nat} {v : Word} {e : Nat × Word} (h : e ∈ insertCell m k v) :
    e = (k, v) ∨ e ∈ m := by
  induction m with
  | nil => simp_all [insertCell]
  | cons f rest ih =>
    obtain ⟨a, x⟩ := f
    unfold insertCell at h
    split at h
    · simpa using h
    · split at h
      · rcases List.mem_cons.1 h with h | h
        · exact .inl h
        · exact .inr (by simp [h])
      · rcases List.mem_cons.1 h with h | h
        · exact .inr (by simp [h])
        · rcases ih h with h | h
          · exact .inl h
          · exact .inr (by simp [h])

theorem mem_eraseCell {m : Memory} {k : Nat} {e : Nat × Word} (h : e ∈ eraseCell m k) : e ∈ m := by
  induction m with
  | nil => simp [eraseCell] at h
  | cons f rest ih =>
    obtain ⟨a, x⟩ := f
    unfold eraseCell at h
    split at h
    · simp [h]
    · rcases List.mem_cons.1 h with h | h
      · simp [h]
      · simp [ih h]

theorem pairwise_insertCell {m : Memory} (h : m.Pairwise fun a b => a.1 < b.1) (k : Nat) (v : Word) :
    (insertCell m k v).Pairwise fun a b => a.1 < b.1 := by
  induction m with
  | nil => simp [insertCell]
  | cons f rest ih =>
    obtain ⟨a, x⟩ := f
    have hc := List.pairwise_cons.1 h
    unfold insertCell
    split
    · rename_i h1
      refine List.pairwise_cons.2 ⟨fun e he => ?_, h⟩
      rcases List.mem_cons.1 he with he | he
      · simp [he, h1]
      · have := hc.1 e he
        simp at this ⊢
        omega
    · split
      · rename_i h1 h2
        exact List.pairwise_cons.2 ⟨fun e he => by simpa [h2] using hc.1 e he, hc.2⟩
      · rename_i h1 h2
        refine List.pairwise_cons.2 ⟨fun e he => ?_, ih hc.2⟩
        rcases mem_insertCell he with he | he
        · simp [he]
          omega
        · exact hc.1 e he

theorem pairwise_eraseCell {m : Memory} (h : m.Pairwise fun a b => a.1 < b.1) (k : Nat) :
    (eraseCell m k).Pairwise fun a b => a.1 < b.1 := by
  induction m with
  | nil => simp [eraseCell]
  | cons f rest ih =>
    obtain ⟨a, x⟩ := f
    have hc := List.pairwise_cons.1 h
    unfold eraseCell
    split
    · exact hc.2
    · exact List.pairwise_cons.2 ⟨fun e he => hc.1 e (mem_eraseCell he), ih hc.2⟩

/-- Every write keeps the canonical form. -/
theorem wf_write {c : Channel} {m : Memory} (h : Memory.wf c m) (k : Index) (v : Word) :
    Memory.wf c (write c m k v) := by
  unfold write
  split
  · exact ⟨pairwise_eraseCell h.1 _, fun e he => h.2 e (mem_eraseCell he)⟩
  · rename_i h1
    refine ⟨pairwise_insertCell h.1 _ _, fun e he => ?_⟩
    rcases mem_insertCell he with he | he
    · subst he
      exact ⟨k.isLt, by simpa using h1⟩
    · exact h.2 e he

/-- The memory with nothing listed is in canonical form. -/
theorem wf_nil (c : Channel) : Memory.wf c [] := by simp [Memory.wf]

end Memory

/-! ## The sample memories of a state -/

theorem memWf_mem {s : State} (h : s.memWf) (c : Channel) : Memory.wf c (s.mem c) := by
  cases c
  · exact h.1
  · exact h.2

/-- A read of the word just written gives the value written. -/
theorem readSample_writeSample_self {s : State} (h : s.memWf) (c : Channel) (k : Index) (v : Word) :
    (s.writeSample c k v).readSample c k = v := by
  cases c
  · exact Memory.read_write_self h.1 k v
  · exact Memory.read_write_self h.2 k v

/-- A write leaves every other word alone, in both channels. -/
theorem readSample_writeSample_other {c d : Channel} {k l : Index} (h : c ≠ d ∨ l ≠ k) (v : Word) (s : State) :
    (s.writeSample c k v).readSample d l = s.readSample d l := by
  cases c <;> cases d
  · exact Memory.read_write_other (by simpa using h) _ _ _
  · rfl
  · rfl
  · exact Memory.read_write_other (by simpa using h) _ _ _

/-- A write keeps both memories in canonical form. -/
theorem memWf_writeSample {s : State} (h : s.memWf) (c : Channel) (k : Index) (v : Word) :
    (s.writeSample c k v).memWf := by
  cases c
  · exact ⟨Memory.wf_write h.1 k v, h.2⟩
  · exact ⟨h.1, Memory.wf_write h.2 k v⟩

theorem memWf_permSwap {s : State} (h : s.memWf) (k : Index) : (permSwap k s).memWf := by
  unfold permSwap
  dsimp only
  split
  · exact memWf_writeSample (memWf_writeSample (memWf_writeSample (memWf_writeSample h _ _ _) _ _ _) _ _ _) _ _ _
  · exact h

theorem memWf_bfly {s : State} (h : s.memWf) (m : HalveMode) (i j : Index) (wr wi : Word) (sh : Bool) :
    (bfly m i j wr wi sh s).memWf :=
  memWf_writeSample (memWf_writeSample (memWf_writeSample (memWf_writeSample h _ _ _) _ _ _) _ _ _) _ _ _

theorem memWf_reset : State.reset.memWf := ⟨Memory.wf_nil _, Memory.wf_nil _⟩

/-- A read depends on the two memories alone. -/
theorem readSample_congr {s t : State} (hre : s.re = t.re) (him : s.im = t.im) (c : Channel) (k : Index) :
    s.readSample c k = t.readSample c k := by
  cases c <;> simp [State.readSample, State.mem, hre, him]

end Sys2Proof.Machine
end

