-- ==== Sys2Proof/Laws/Ops.lean ====
section
/-! SUPPORT. What each shared operation can do, said once: the guards, the sequencing of two operations, the body of each
micro-operation, and what each instruction answers when it answers a next state. -/

namespace Sys2Proof.Machine

/-! ## Reads see only the two memories -/

@[simp] theorem readSample_popInput (s : State) (c : Channel) (k : Index) :
    (s.popInput).readSample c k = s.readSample c k := readSample_congr (by simp) (by simp) c k
@[simp] theorem readSample_setHrdata (v : Option Word) (s : State) (c : Channel) (k : Index) :
    (s.setHrdata v).readSample c k = s.readSample c k := readSample_congr (by simp) (by simp) c k
@[simp] theorem readSample_startTransform (b : Bool) (s : State) (c : Channel) (k : Index) :
    (s.startTransform b).readSample c k = s.readSample c k := readSample_congr (by simp) (by simp) c k
@[simp] theorem readSample_applyReset (s : State) (c : Channel) (k : Index) :
    (s.applyReset).readSample c k = s.readSample c k := readSample_congr (by simp) (by simp) c k
@[simp] theorem readSample_permAdvance (s : State) (c : Channel) (k : Index) :
    (permAdvance s).readSample c k = s.readSample c k := readSample_congr (by simp) (by simp) c k
@[simp] theorem readSample_scanAdvance (s : State) (c : Channel) (k : Index) :
    (scanAdvance s).readSample c k = s.readSample c k := readSample_congr (by simp) (by simp) c k
@[simp] theorem readSample_bflyAdvance (s : State) (c : Channel) (k : Index) :
    (bflyAdvance s).readSample c k = s.readSample c k := readSample_congr (by simp) (by simp) c k

/-! ## Guards and sequencing -/

theorem next_eq_next {a b : State} : (Host.Outcome.next a : Answer) = .next b ↔ b = a :=
  ⟨fun h => by injection h with h; exact h.symm, fun h => by rw [h]⟩

@[simp] theorem andThen_next (s : State) (k : State → Answer) : andThen (.next s) k = k s := rfl

/-- A sequence answers a next state exactly when both parts do. -/
theorem andThen_eq_next {o : Answer} {k : State → Answer} {t : State} :
    andThen o k = .next t ↔ ∃ s, o = .next s ∧ k s = .next t := by
  cases o <;> simp [andThen]

theorem engineOp_eq_next {s t : State} {k : State → Answer} :
    engineOp s k = .next t ↔ s.registersDefined = true ∧ k s = .next t := by
  unfold engineOp
  split <;> simp_all

theorem microOp_eq_next {p : Phase} {s t : State} {k : State → Answer} :
    microOp p s k = .next t ↔ s.phase = p ∧ s.registersDefined = true ∧ k s = .next t := by
  unfold microOp
  split
  · rename_i h
    simp [engineOp_eq_next, h]
  · rename_i h
    simp [h]

theorem hostOp_eq_next {s t : State} {k : State → Answer} :
    hostOp s k = .next t ↔ s.busy = false ∧ k s = .next t := by
  unfold hostOp
  split <;> simp_all

theorem busy_eq_false {s : State} : s.busy = false ↔ s.phase = .idle ∨ s.phase = .done := by
  unfold State.busy
  cases s.phase <;> simp

/-- `STEP` has a meaning exactly when it is a power of two up to 1024. -/
theorem stepDefined_iff (w : BitVec 11) : stepDefined w = true ↔ ∃ k : Fin 11, w.toNat = 2 ^ k.val := by
  revert w
  decide +kernel

theorem registersDefined_iff {s : State} :
    s.registersDefined = true ↔
      s.scale.toNat ≤ 10 ∧ s.stage.toNat ≤ 10 ∧ ∃ k : Fin 11, s.step.toNat = 2 ^ k.val := by
  simp [State.registersDefined, Config.scaleMax, Config.log2N, stepDefined_iff, and_assoc]

/-! ## The bodies of the micro-operations -/

/-- `PERM.SWAP(k)` exchanges the two samples of a pair when `BR[k]` is above `k`, and touches nothing else. -/
theorem readSample_permSwap {s : State} (h : s.memWf) (k : Index) (c : Channel) (l : Index) :
    (permSwap k s).readSample c l =
      if k < brRead s.br k then
        if l = k then s.readSample c (brRead s.br k)
        else if l = brRead s.br k then s.readSample c k
        else s.readSample c l
      else s.readSample c l := by
  unfold permSwap
  dsimp only
  split
  · rename_i hlt
    have hne : k ≠ brRead s.br k := fun e => by rw [← e] at hlt; exact absurd hlt (BitVec.lt_irrefl k)
    generalize brRead s.br k = r at hlt hne
    have h1 := memWf_writeSample h .re k (s.readSample .re r)
    have h2 := memWf_writeSample h1 .re r (s.readSample .re k)
    have h3 := memWf_writeSample h2 .im k (s.readSample .im r)
    cases c
    · rw [readSample_writeSample_other (.inl (by decide)), readSample_writeSample_other (.inl (by decide))]
      by_cases hl : l = r
      · subst hl
        simp [readSample_writeSample_self h1, Ne.symm hne]
      · rw [readSample_writeSample_other (.inr hl)]
        by_cases hk : l = k
        · subst hk
          simp [readSample_writeSample_self h]
        · rw [readSample_writeSample_other (.inr hk)]
          simp [hk, hl]
    · by_cases hl : l = r
      · subst hl
        simp [readSample_writeSample_self h3, Ne.symm hne]
      · rw [readSample_writeSample_other (.inr hl)]
        by_cases hk : l = k
        · subst hk
          simp [readSample_writeSample_self h2]
        · rw [readSample_writeSample_other (.inr hk), readSample_writeSample_other (.inl (by decide)),
            readSample_writeSample_other (.inl (by decide))]
          simp [hk, hl]
  · rfl

/-- `BFLY` writes near plus product and near minus product, and touches no other word. -/
theorem readSample_bfly {s : State} (h : s.memWf) {i j : Index} (hij : i ≠ j) (m : HalveMode) (wr wi : Word) (sh : Bool)
    (c : Channel) (l : Index) :
    (bfly m i j wr wi sh s).readSample c l =
      let t := complexProduct wr wi (s.readSample .re j) (s.readSample .im j)
      let q := passThrough m sh (s.readSample c i)
      let p := match c with
        | .re => t.1
        | .im => t.2
      if l = i then add16 q p else if l = j then sub16 q p else s.readSample c l := by
  unfold bfly
  dsimp only
  generalize complexProduct wr wi (s.readSample .re j) (s.readSample .im j) = t
  have h1 := memWf_writeSample h .re j (sub16 (passThrough m sh (s.readSample .re i)) t.1)
  have h2 := memWf_writeSample h1 .im j (sub16 (passThrough m sh (s.readSample .im i)) t.2)
  have h3 := memWf_writeSample h2 .re i (add16 (passThrough m sh (s.readSample .re i)) t.1)
  cases c
  · rw [readSample_writeSample_other (.inl (by decide))]
    by_cases hl : l = i
    · subst hl
      simp [readSample_writeSample_self h2]
    · rw [readSample_writeSample_other (.inr hl), readSample_writeSample_other (.inl (by decide))]
      by_cases hk : l = j
      · subst hk
        simp [readSample_writeSample_self h, hl]
      · rw [readSample_writeSample_other (.inr hk)]
        simp [hl, hk]
  · by_cases hl : l = i
    · subst hl
      simp [readSample_writeSample_self h3]
    · rw [readSample_writeSample_other (.inr hl), readSample_writeSample_other (.inl (by decide))]
      by_cases hk : l = j
      · subst hk
        simp [readSample_writeSample_self h1, hl]
      · rw [readSample_writeSample_other (.inr hk), readSample_writeSample_other (.inl (by decide))]
        simp [hl, hk]

/-! ## What each instruction answers, when it answers a next state -/

theorem command_eq_next {b : Bool} {s t : State} :
    command b s = .next t ↔
      (s.busy = true ∧ t = s) ∨ (s.busy = false ∧ s.registersDefined = true ∧ t = s.startTransform b) := by
  unfold command
  split
  · rename_i h
    simp [h, next_eq_next, -Host.Outcome.next.injEq]
  · rename_i h
    simp [engineOp_eq_next, h, next_eq_next, -Host.Outcome.next.injEq]

theorem hold_eq_next {p : Phase} {s t : State} :
    hold p s = .next t ↔
      s.phase = p ∧ s.registersDefined = true ∧
        t = if s.pins.start then s.startTransform s.pins.inverse else s := by
  simp only [hold, microOp_eq_next, next_eq_next]

theorem execPermStep_eq_next {s t : State} :
    execPermStep s = .next t ↔
      s.phase = .perm ∧ s.registersDefined = true ∧ t = permAdvance (permSwap s.idx s) := by
  simp only [execPermStep, microOp_eq_next, next_eq_next]

theorem execScanStep_eq_next {s t : State} :
    execScanStep s = .next t ↔ s.phase = .scan ∧ s.registersDefined = true ∧ t = scanAdvance s := by
  simp only [execScanStep, microOp_eq_next, next_eq_next]

theorem execBflyStep_eq_next {s t : State} :
    execBflyStep s = .next t ↔
      s.phase = .bfly ∧ s.registersDefined = true ∧
        ∃ jp j, twiddleIndex s.g s.stage = some jp ∧ farIndex s.i s.step = some j ∧
          t = bflyAdvance (bfly s.halveMode s.i j
            (twiddleWeights s.halveMode s.tw jp s.inv s.shift).1
            (twiddleWeights s.halveMode s.tw jp s.inv s.shift).2 s.shift s) := by
  unfold execBflyStep twiddle
  rw [microOp_eq_next]
  cases twiddleIndex s.g s.stage <;> cases farIndex s.i s.step <;>
    simp [next_eq_next, -Host.Outcome.next.injEq]

theorem execHrdRe_eq_next {k : Index} {s t : State} :
    execHrdRe k s = .next t ↔ s.busy = false ∧ t = s.setHrdata (some (s.readSample .re k)) := by
  simp only [execHrdRe, hostOp_eq_next, next_eq_next]

theorem execHrdIm_eq_next {k : Index} {s t : State} :
    execHrdIm k s = .next t ↔ s.busy = false ∧ t = s.setHrdata (some (s.readSample .im k)) := by
  simp only [execHrdIm, hostOp_eq_next, next_eq_next]

theorem execHwrRe_eq_next {k : Index} {v : Word} {s t : State} :
    execHwrRe k v s = .next t ↔ s.busy = false ∧ t = s.writeSample .re k v := by
  simp only [execHwrRe, hostOp_eq_next, next_eq_next]

theorem execHwrIm_eq_next {k : Index} {v : Word} {s t : State} :
    execHwrIm k v s = .next t ↔ s.busy = false ∧ t = s.writeSample .im k v := by
  simp only [execHwrIm, hostOp_eq_next, next_eq_next]

end Sys2Proof.Machine
end

