-- ==== Sys2Proof/Laws/Step.lean ====
section
/-! SUPPORT. What one micro-step can do, said once: the words it runs, the engine's operation by phase, and the step
itself. -/

namespace Sys2Proof.Machine

theorem runWord_cmd (w : BitVec 1) (s : State) : runWord (.cmd w) s = exec (decodeCmd w) s := rfl

theorem runWord_hacc (w : BitVec 28) (s : State) : runWord (.hacc w) s = exec (decodeHacc w) s := rfl

theorem runWord_code (p : Phase) (s : State) :
    runWord (.uop p.code) s =
      match p with
      | .idle => execIdleHold s
      | .perm => execPermStep s
      | .scan => execScanStep s
      | .bfly => execBflyStep s
      | .done => execDoneHold s := by
  cases p <;> rfl

theorem runWord_command (b : Bool) (s : State) : runWord (.cmd (BitVec.ofBool b)) s = command b s := by
  cases b <;> rfl

/-- A host access answers a next state only while not busy, and then only the read data or one sample word change. -/
theorem exec_decodeHacc_eq_next {w : BitVec 28} {s t : State} (h : exec (decodeHacc w) s = .next t) :
    s.busy = false ∧
      ((∃ c k, t = s.setHrdata (some (s.readSample c k))) ∨ ∃ c k v, t = s.writeSample c k v) := by
  unfold decodeHacc at h
  split at h
  · obtain ⟨hb, rfl⟩ := execHrdRe_eq_next.1 h
    exact ⟨hb, .inl ⟨_, _, rfl⟩⟩
  · obtain ⟨hb, rfl⟩ := execHrdIm_eq_next.1 h
    exact ⟨hb, .inl ⟨_, _, rfl⟩⟩
  · obtain ⟨hb, rfl⟩ := execHwrRe_eq_next.1 h
    exact ⟨hb, .inr ⟨_, _, _, rfl⟩⟩
  · obtain ⟨hb, rfl⟩ := execHwrIm_eq_next.1 h
    exact ⟨hb, .inr ⟨_, _, _, rfl⟩⟩

theorem hostAccess_eq_next {s t : State} :
    hostAccess s = .next t ↔
      (s.pins.hvalid = false ∧ t = s) ∨
        (s.pins.hvalid = true ∧ exec (decodeHacc s.pins.hacc) s = .next t) := by
  unfold hostAccess
  split
  · rename_i h
    simp [h, runWord_hacc]
  · rename_i h
    simp [h, next_eq_next, -Host.Outcome.next.injEq]

/-- A host access leaves the sequencer, the ROMs and the inputs alone. -/
theorem hostAccess_frame {s t : State} (h : hostAccess s = .next t) :
    t.tw = s.tw ∧ t.br = s.br ∧ t.scale = s.scale ∧ t.inv = s.inv ∧ t.shift = s.shift ∧ t.phase = s.phase ∧
      t.idx = s.idx ∧ t.stage = s.stage ∧ t.step = s.step ∧ t.g = s.g ∧ t.i = s.i ∧ t.host = s.host := by
  rcases hostAccess_eq_next.1 h with ⟨-, rfl⟩ | ⟨-, h⟩
  · simp
  · obtain ⟨-, ⟨c, k, rfl⟩ | ⟨c, k, v, rfl⟩⟩ := exec_decodeHacc_eq_next h <;> simp

/-- The engine's operation answers a next state in one of these ways: an accepted command, a hold, or the
micro-operation of `PERM`, `SCAN` or `BFLY`. -/
theorem engineOperation_eq_next {s t : State} (h : engineOperation s = .next t) :
    s.registersDefined = true ∧
      ((s.busy = false ∧ s.pins.start = true ∧ t = s.startTransform s.pins.inverse) ∨
        (s.busy = false ∧ s.pins.start = false ∧ t = s) ∨
        (s.phase = .perm ∧ t = permAdvance (permSwap s.idx s)) ∨
        (s.phase = .scan ∧ t = scanAdvance s) ∨
        (s.phase = .bfly ∧ ∃ jp j, twiddleIndex s.g s.stage = some jp ∧ farIndex s.i s.step = some j ∧
          t = bflyAdvance (bfly s.halveMode s.i j
            (twiddleWeights s.halveMode s.tw jp s.inv s.shift).1
            (twiddleWeights s.halveMode s.tw jp s.inv s.shift).2 s.shift s))) := by
  unfold engineOperation State.engineWord at h
  by_cases hb : s.busy = true
  · rw [if_neg (by simp [hb]), runWord_code] at h
    cases hp : s.phase <;> rw [hp] at h
    · simp [State.busy, hp] at hb
    · obtain ⟨-, hd, ht⟩ := execPermStep_eq_next.1 h
      exact ⟨hd, .inr (.inr (.inl ⟨rfl, ht⟩))⟩
    · obtain ⟨-, hd, ht⟩ := execScanStep_eq_next.1 h
      exact ⟨hd, .inr (.inr (.inr (.inl ⟨rfl, ht⟩)))⟩
    · obtain ⟨-, hd, ht⟩ := execBflyStep_eq_next.1 h
      exact ⟨hd, .inr (.inr (.inr (.inr ⟨rfl, ht⟩)))⟩
    · simp [State.busy, hp] at hb
  · replace hb : s.busy = false := by simpa using hb
    by_cases hs : s.pins.start = true
    · rw [if_pos (by simp [hb, hs]), runWord_command] at h
      rcases command_eq_next.1 h with ⟨h1, -⟩ | ⟨-, hd, ht⟩
      · simp [hb] at h1
      · exact ⟨hd, .inl ⟨hb, hs, ht⟩⟩
    · replace hs : s.pins.start = false := by simpa using hs
      rw [if_neg (by simp [hs]), runWord_code] at h
      rcases busy_eq_false.1 hb with hp | hp <;> rw [hp] at h
      · obtain ⟨-, hd, ht⟩ := hold_eq_next.1 h
        exact ⟨hd, .inr (.inl ⟨hb, hs, by simpa [hs] using ht⟩)⟩
      · obtain ⟨-, hd, ht⟩ := hold_eq_next.1 h
        exact ⟨hd, .inr (.inl ⟨hb, hs, by simpa [hs] using ht⟩)⟩

/-- One step: `reset`, or a host access and then the engine's operation. -/
theorem step_eq_next {s t : State} :
    step s = .next t ↔
      (s.pins.reset = true ∧ t = s.applyReset.popInput) ∨
        (s.pins.reset = false ∧ ∃ s1 s2, hostAccess (s.setHrdata none) = .next s1 ∧
          engineOperation s1 = .next s2 ∧ t = s2.popInput) := by
  unfold step microStep
  split
  · rename_i h
    simp [h, next_eq_next, -Host.Outcome.next.injEq]
  · rename_i h
    simp [h, andThen_eq_next, next_eq_next, -Host.Outcome.next.injEq]

end Sys2Proof.Machine
end

