-- ==== Sys2Proof/Laws/PerInstr.lean ====
section
/-! SUPPORT. The family `TableMatch`: every instruction's encoded word carries the fixed bits its row of
`spec/opcode_table.json` gives it, on the port of the row's format, one lemma per constructor. -/

namespace Sys2Proof.Laws.TableMatch

/-- The columns `width`, `match` and `mask` of an instruction's row. -/
def row : Instr → Nat × Nat × Nat
  | .fftFwd => (1, 0x0, 0x1)
  | .fftInv => (1, 0x1, 0x1)
  | .hrdRe _ => (28, 0x0000000, 0xC000000)
  | .hrdIm _ => (28, 0x4000000, 0xC000000)
  | .hwrRe _ _ => (28, 0x8000000, 0xC000000)
  | .hwrIm _ _ => (28, 0xC000000, 0xC000000)
  | .idleHold => (3, 0x0, 0x7)
  | .permStep => (3, 0x1, 0x7)
  | .scanStep => (3, 0x2, 0x7)
  | .bflyStep => (3, 0x3, 0x7)
  | .doneHold => (3, 0x4, 0x7)

/-- The width of a word and its value as a number. -/
def bits : OpWord → Nat × Nat
  | .cmd w => (1, w.toNat)
  | .hacc w => (28, w.toNat)
  | .uop w => (3, w.toNat)

/-- The encoded word has the row's width, and its bits under the row's mask are the row's match. -/
def Statement (i : Instr) : Prop :=
  (bits (encode i)).1 = (row i).1 ∧ (bits (encode i)).2 &&& (row i).2.2 = (row i).2.1

/-- An access word as a number: its fields at their places. -/
theorem haccWord_toNat (we sel : BitVec 1) (k : Index) (v : Word) :
    (haccWord we sel k v).toNat = ((we.toNat * 2 + sel.toNat) * 1024 + k.toNat) * 65536 + v.toNat := by
  unfold haccWord
  simp only [BitVec.toNat_append]
  rw [← Nat.shiftLeft_add_eq_or_of_lt v.isLt, ← Nat.shiftLeft_add_eq_or_of_lt k.isLt,
    ← Nat.shiftLeft_add_eq_or_of_lt sel.isLt]
  simp only [Nat.shiftLeft_eq]

/-- The bits below 26 do not reach the mask `0xC000000`. -/
theorem low_and_mask {r : Nat} (h : r < 2 ^ 26) : r &&& 0xC000000 = 0 := by
  apply Nat.eq_of_testBit_eq
  intro b
  rw [Nat.testBit_and, Nat.zero_testBit, show (0xC000000 : Nat) = 2 ^ 26 * 3 by norm_num, Nat.testBit_two_pow_mul]
  by_cases hb : 26 ≤ b
  · rw [Nat.testBit_lt_two_pow (lt_of_lt_of_le h (Nat.pow_le_pow_right (by norm_num) hb)), Bool.false_and]
  · simp [hb]

/-- The two bits on top of an access word, and nothing below them, survive the mask of its row. -/
theorem haccWord_top (we sel : BitVec 1) (k : Index) (v : Word) :
    (haccWord we sel k v).toNat &&& 0xC000000 = (we.toNat * 2 + sel.toNat) * 0x4000000 := by
  have hk := k.isLt
  have hv := v.isLt
  have hr : k.toNat * 65536 + v.toNat < 2 ^ 26 := by omega
  have hw := we.isLt
  have hs := sel.isLt
  have hc : we.toNat * 2 + sel.toNat < 4 := by omega
  rw [haccWord_toNat]
  generalize we.toNat * 2 + sel.toNat = c at *
  rw [show (c * 1024 + k.toNat) * 65536 + v.toNat = 2 ^ 26 * c + (k.toNat * 65536 + v.toNat) by ring,
    Nat.two_pow_add_eq_or_of_lt hr, Nat.and_or_distrib_right, low_and_mask hr]
  interval_cases c <;> rfl

theorem fftFwd : Statement .fftFwd := ⟨rfl, rfl⟩

theorem fftInv : Statement .fftInv := ⟨rfl, rfl⟩

theorem hrdRe (k : Index) : Statement (.hrdRe k) := ⟨rfl, haccWord_top 0b0#1 0b0#1 k 0#16⟩

theorem hrdIm (k : Index) : Statement (.hrdIm k) := ⟨rfl, haccWord_top 0b0#1 0b1#1 k 0#16⟩

theorem hwrRe (k : Index) (v : Word) : Statement (.hwrRe k v) := ⟨rfl, haccWord_top 0b1#1 0b0#1 k v⟩

theorem hwrIm (k : Index) (v : Word) : Statement (.hwrIm k v) := ⟨rfl, haccWord_top 0b1#1 0b1#1 k v⟩

theorem idleHold : Statement .idleHold := ⟨rfl, rfl⟩

theorem permStep : Statement .permStep := ⟨rfl, rfl⟩

theorem scanStep : Statement .scanStep := ⟨rfl, rfl⟩

theorem bflyStep : Statement .bflyStep := ⟨rfl, rfl⟩

theorem doneHold : Statement .doneHold := ⟨rfl, rfl⟩

end Sys2Proof.Laws.TableMatch
end

