-- ==== Sys2Proof/Tests/Slice0.lean ====
section
/-! SUPPORT. Tests on fixed values, taken from `spec/30_encoding.md` and `spec/95_test_vectors.md`, and for every
statement with hypotheses a witness that meets them all (`witness_<statement>`). -/

namespace Sys2Proof.Tests.Slice0
open Sys2Proof Sys2Proof.Machine

/-! ## Small states -/

/-- Sample words put into a state, in order: a channel, an index, a word. -/
def putAll (l : List (Channel × Index × Word)) (s : State) : State :=
  l.foldl (fun s e => s.writeSample e.1 e.2.1 e.2.2) s

theorem memWf_putAll (l : List (Channel × Index × Word)) {s : State} (h : s.memWf) : (putAll l s).memWf := by
  induction l generalizing s with
  | nil => exact h
  | cons e rest ih => exact ih (memWf_writeSample h _ _ _)

/-- The word `putAll` leaves at an index: the last one put there. -/
theorem readSample_putAll (l : List (Channel × Index × Word)) {s : State} (h : s.memWf) (c : Channel) (k : Index) :
    (putAll l s).readSample c k =
      l.foldl (fun a e => if e.1 = c ∧ e.2.1 = k then e.2.2 else a) (s.readSample c k) := by
  induction l generalizing s with
  | nil => rfl
  | cons e rest ih =>
    refine (ih (memWf_writeSample h e.1 e.2.1 e.2.2)).trans ?_
    rw [List.foldl_cons]
    congr 1
    by_cases he : e.1 = c ∧ e.2.1 = k
    · rw [if_pos he, ← he.1, ← he.2, readSample_writeSample_self h]
    · rw [if_neg he, readSample_writeSample_other]
      by_cases h1 : e.1 = c
      · exact .inr fun h2 => he ⟨h1, h2.symm⟩
      · exact .inl h1

/-- The reset state in phase `p`, at the position where a transform enters it. -/
def at_ (p : Phase) : State := State.reset.atPhase p

/-- All 2048 words written with 0. -/
def zeroed : State :=
  (List.range 1024).foldl (fun s k => (s.writeSample .re (BitVec.ofNat 10 k) 0#16).writeSample .im (BitVec.ofNat 10 k) 0#16)
    State.reset

theorem zeroed_spec : zeroed.memWf ∧ zeroed.br = bitReversalRom ∧ ∀ c k, zeroed.readSample c k = 0#16 := by
  have h : ∀ n ≤ 1024, ∀ s, s = (List.range n).foldl
      (fun s k => (s.writeSample .re (BitVec.ofNat 10 k) 0#16).writeSample .im (BitVec.ofNat 10 k) 0#16) State.reset →
      s.memWf ∧ s.br = bitReversalRom ∧ ∀ c (k : Index), k.toNat < n → s.readSample c k = 0#16 := by
    intro n
    induction n with
    | zero =>
      rintro - s rfl
      exact ⟨memWf_reset, rfl, fun c k hk => by omega⟩
    | succ n ih =>
      intro hn s hs
      obtain ⟨hw, hb, hr⟩ := ih (by omega) _ rfl
      rw [List.range_succ, List.foldl_append] at hs
      subst hs
      simp only [List.foldl_cons, List.foldl_nil]
      refine ⟨memWf_writeSample (memWf_writeSample hw _ _ _) _ _ _, by simpa using hb, fun c k hk => ?_⟩
      by_cases hkn : k = BitVec.ofNat 10 n
      · subst hkn
        cases c
        · rw [readSample_writeSample_other (.inl (by decide)), readSample_writeSample_self hw]
        · rw [readSample_writeSample_self (memWf_writeSample hw _ _ _)]
      · rw [readSample_writeSample_other (.inr hkn), readSample_writeSample_other (.inr hkn)]
        refine hr c k ?_
        have : k.toNat ≠ n := fun e => hkn (by rw [← e]; simp)
        omega
  obtain ⟨hw, hb, hr⟩ := h 1024 le_rfl zeroed rfl
  exact ⟨hw, hb, fun c k => hr c k k.isLt⟩

/-! ## The encodings of `30_encoding.md` and the words of `95_test_vectors.md` section P -/

theorem test_decode_fftFwd : decode (.cmd 0b0#1) = .ok .fftFwd := by decide
theorem test_decode_fftInv : decode (.cmd 0b1#1) = .ok .fftInv := by decide
/-- `HRD.RE 1023`: 0x3FF0000; `we` 0, `sel` 0, `idx` all ones, `wdata` 0. -/
theorem test_decode_hrdRe : decode (.hacc 0b00_1111111111_0000000000000000#28) = .ok (.hrdRe 1023#10) := by decide
/-- `HRD.IM 512`: 0x6000000. -/
theorem test_decode_hrdIm : decode (.hacc 0b01_1000000000_0000000000000000#28) = .ok (.hrdIm 512#10) := by decide
/-- `HWR.RE 1, 8000`: 0x8011F40. -/
theorem test_decode_hwrRe : decode (.hacc 0b10_0000000001_0001111101000000#28) = .ok (.hwrRe 1#10 8000#16) := by decide
/-- `HWR.IM 1023, 0`: 0xFFF0000, the last word of `CLEAR`. -/
theorem test_decode_hwrIm : decode (.hacc 0b11_1111111111_0000000000000000#28) = .ok (.hwrIm 1023#10 0#16) := by decide
theorem test_decode_idleHold : decode (.uop 0b000#3) = .ok .idleHold := by decide
theorem test_decode_permStep : decode (.uop 0b001#3) = .ok .permStep := by decide
theorem test_decode_scanStep : decode (.uop 0b010#3) = .ok .scanStep := by decide
theorem test_decode_bflyStep : decode (.uop 0b011#3) = .ok .bflyStep := by decide
theorem test_decode_doneHold : decode (.uop 0b100#3) = .ok .doneHold := by decide

/-- The table's words, by the width the table gives them. -/
theorem test_decodeTableWord :
    decodeTableWord 1 1 = some .fftInv ∧ decodeTableWord 28 0x8017FFF = some (.hwrRe 1#10 32767#16) ∧
      decodeTableWord 32 0x4010000 = some (.hrdIm 1#10) ∧ decodeTableWord 3 1 = some .permStep ∧
      decodeTableWord 8 3 = some .bflyStep ∧ decodeTableWord 3 6 = none := by decide

/-! ## Smoke test of `WellFormed`: the reserved codes, and the decoder's refusal of each -/

theorem test_wellFormed_code5 : (OpWord.uop 0b101#3).wellFormed = false ∧
    decode (.uop 0b101#3) = .error (.reservedPhaseCode 5#3) := by decide
theorem test_wellFormed_code6 : (OpWord.uop 0b110#3).wellFormed = false ∧
    decode (.uop 0b110#3) = .error (.reservedPhaseCode 6#3) := by decide
theorem test_wellFormed_code7 : (OpWord.uop 0b111#3).wellFormed = false ∧
    decode (.uop 0b111#3) = .error (.reservedPhaseCode 7#3) := by decide
theorem test_wellFormed_accepts : (OpWord.uop 0b100#3).wellFormed = true ∧ (OpWord.cmd 1#1).wellFormed = true ∧
    (OpWord.hacc 0xFFFFFFF#28).wellFormed = true := by decide

/-! ## Arithmetic: vectors V1 to V4 -/

/-- V1: the wrapping pair, a negative tie, ties up, and rows a truncating division gets wrong. -/
theorem test_fixMpy :
    (fixMpy (-32768) (-32768)).toInt = -32768 ∧ (fixMpy 32767 (-32768)).toInt = -32767 ∧
      (fixMpy (-32767) (-32768)).toInt = 32767 ∧ (fixMpy (-1) 16384).toInt = 0 ∧ (fixMpy (-1) 16385).toInt = -1 ∧
      (fixMpy 1 16384).toInt = 1 ∧ (fixMpy (-3) 16384).toInt = -1 ∧ (fixMpy 32766 (-201)).toInt = -201 := by decide
/-- V2: both modes on negative odd operands and at the ends of the range. -/
theorem test_halve :
    (halve .trunc (-1)).toInt = 0 ∧ (halve .floor (-1)).toInt = -1 ∧ (halve .trunc (-16385)).toInt = -8192 ∧
      (halve .floor (-16385)).toInt = -8193 ∧ (halve .trunc 32767).toInt = 16383 ∧
      (halve .trunc (-32768)).toInt = -16384 ∧ (halve .floor (-32767)).toInt = -16384 := by decide
/-- V2. -/
theorem test_add_sub_neg :
    (add16 32767 1).toInt = -32768 ∧ (add16 16383 23168).toInt = -25985 ∧ (sub16 16383 23168).toInt = -6785 ∧
      (sub16 (-32768) (-1)).toInt = -32767 ∧ (add16 (-16384) (-16385)).toInt = 32767 ∧
      (neg16 (-32768)).toInt = -32768 ∧ (neg16 23170).toInt = -23170 := by decide
/-- V2: the safe sub-range is closed. -/
theorem test_oor : oor (-16385) = true ∧ oor (-16384) = false ∧ oor 16383 = false ∧ oor 16384 = true ∧
    oor (-32768) = true ∧ oor 0 = false := by decide
/-- V3. -/
theorem test_bitReversal : (brRead bitReversalRom 1).toNat = 512 ∧ (brRead bitReversalRom 651).toNat = 837 ∧
    (brRead bitReversalRom 48).toNat = 48 ∧ (brRead bitReversalRom 1000).toNat = 95 := by decide +kernel
/-- V3. -/
theorem test_twiddleRom : (twSin twiddleRom 127).toInt = 23027 ∧ (twSin twiddleRom 257).toInt = 32766 ∧
    (twCos twiddleRom 257).toInt = -201 ∧ (twCos twiddleRom 511).toInt = -32766 := by decide +kernel
/-- V4, the rows with `jp` 256, 384, 20 and 511. -/
theorem test_twiddle :
    twiddle .trunc twiddleRom 1 9 false true = some (0, -16383) ∧
      twiddle .floor twiddleRom 1 9 false true = some (0, -16384) ∧
      twiddle .trunc twiddleRom 3 8 true false = some (-23170, 23170) ∧
      twiddle .trunc twiddleRom 5 3 false false = some (32521, -4011) ∧
      twiddle .trunc twiddleRom 511 1 true true = some (-16383, 100) := by decide +kernel
/-- V4, row 13: products -5, -6, -6, -5. -/
theorem test_complexProduct : complexProduct (-23170) (-23170) 7 9 = (1, -11) := by decide

/-! ## One operation on a small state -/

/-- P3, step 1: `FFT.INV` after reset. -/
theorem test_fftInv : exec .fftInv State.reset = .next (State.reset.startTransform true) ∧
    (State.reset.startTransform true).registersStarted true := ⟨rfl, by decide⟩
/-- P4: `FFT.INV` presented while the engine scans changes nothing. -/
theorem test_fftInv_busy : exec .fftInv (at_ .scan) = .next (at_ .scan) := rfl
/-- `FFT.FWD` in phase `DONE`: a new transform clears `SCALE` and `SHIFT` (P2). -/
theorem test_fftFwd : ∃ t, exec .fftFwd { at_ .done with scale := 8#4, inv := true, shift := true } = .next t ∧
    t.registersStarted false := ⟨_, rfl, by decide⟩
theorem test_fftFwd_busy : exec .fftFwd (at_ .bfly) = .next (at_ .bfly) := rfl
/-- P1: `HRD.RE 1023` returns the stored word. -/
theorem test_hrdRe : ∃ t, exec (.hrdRe 1023) { State.reset with re := [(1023, 16383#16)] } = .next t ∧
    t.hrdata = some 16383#16 := ⟨_, rfl, by decide⟩
theorem test_hrdRe_busy : exec (.hrdRe 0) (at_ .perm) = .refused .hostAccessWhileBusy := rfl
/-- P2: `HRD.IM 256` returns -8000, and not the word of `RE`. -/
theorem test_hrdIm : ∃ t, exec (.hrdIm 256) { State.reset with re := [(256, 1#16)], im := [(256, 0xE0C0#16)] } = .next t ∧
    t.hrdata = some 0xE0C0#16 := ⟨_, rfl, by decide⟩
/-- P2: `HWR.RE 1, 8000`. -/
theorem test_hwrRe : ∃ t, exec (.hwrRe 1 8000) State.reset = .next t ∧ t.readSample .re 1 = 8000#16 :=
  ⟨_, rfl, readSample_writeSample_self memWf_reset .re 1 8000⟩
theorem test_hwrIm : ∃ t, exec (.hwrIm 1023 0xFFFF) State.reset = .next t ∧ t.readSample .im 1023 = 0xFFFF#16 :=
  ⟨_, rfl, readSample_writeSample_self memWf_reset .im 1023 0xFFFF⟩
theorem test_hwrIm_busy : exec (.hwrIm 0 0) (at_ .scan) = .refused .hostAccessWhileBusy := rfl
theorem test_idleHold : exec .idleHold State.reset = .next State.reset := rfl
theorem test_idleHold_start : ∃ t, exec .idleHold { State.reset with host := [line .fftInv] } = .next t ∧
    t.registersStarted true := ⟨_, rfl, by decide⟩
theorem test_doneHold : exec .doneHold { at_ .done with scale := 2#4 } = .next { at_ .done with scale := 2#4 } := rfl
theorem test_doneHold_start : ∃ t, exec .doneHold { at_ .done with scale := 8#4, host := [line .fftFwd] } = .next t ∧
    t.registersStarted false := ⟨_, rfl, by decide⟩

/-- P3, step 3: `PERM.SWAP(1)` moves 32767 from `RE[1]` to `RE[512]`. -/
theorem test_permStep_swaps :
    let s := putAll [(.re, 1, 32767), (.re, 512, 0)] { at_ .perm with idx := 1#10 }
    ∃ t, exec .permStep s = .next t ∧ t.readSample .re 1 = 0#16 ∧ t.readSample .re 512 = 32767#16 ∧ t.idx = 2#10 ∧
      t.phase = .perm := by
  intro s
  have hp : State.memWf { at_ .perm with idx := 1#10 } := memWf_reset
  have hw : s.memWf := memWf_putAll _ hp
  have hb : brRead s.br 1#10 = 512#10 := by decide +kernel
  refine ⟨_, execPermStep_eq_next.2 ⟨rfl, by decide, rfl⟩, ?_, ?_, ?_, ?_⟩
  · rw [readSample_permAdvance, show s.idx = 1#10 from rfl, readSample_permSwap hw, hb]
    simp only [s, readSample_putAll _ hp]
    rfl
  · rw [readSample_permAdvance, show s.idx = 1#10 from rfl, readSample_permSwap hw, hb]
    simp only [s, readSample_putAll _ hp]
    rfl
  · simp [permAdvance]; rfl
  · simp [permAdvance]; rfl
/-- P3, step 1025: the swap at index 1023 does nothing and the scan is armed. -/
theorem test_permStep_last : ∃ t, exec .permStep { at_ .perm with idx := 1023#10 } = .next t ∧ t.phase = .scan ∧
    t.idx = 0#10 ∧ t.stage = 10#4 ∧ t.step = 1#11 ∧ t.re = [] := by
  refine ⟨_, execPermStep_eq_next.2 ⟨rfl, by decide, rfl⟩, ?_⟩
  decide +kernel

/-- P3, step 2049: the last scan step, with the flag set, counts the stage. -/
theorem test_scanStep_last : ∃ t, exec .scanStep 
    { at_ .scan with idx := 1023#10, shift := true, re := [(1023, 0#16)], im := [(1023, 0#16)] } = .next t ∧ t.scale = 1#4 ∧ t.phase = .bfly ∧ t.idx = 0#10 ∧ t.shift = true := by
  refine ⟨_, execScanStep_eq_next.2 ⟨rfl, by decide, rfl⟩, ?_⟩
  decide +kernel
/-- An imaginary component of -16385 alone sets the flag (R211); the scan goes on. -/
theorem test_scanStep_sets : ∃ t, exec .scanStep 
    { at_ .scan with idx := 511#10, re := [(511, 0#16)], im := [(511, 0xBFFF#16)] } = .next t ∧ t.shift = true ∧ t.scale = 0#4 ∧ t.idx = 512#10 ∧ t.phase = .scan := by
  refine ⟨_, execScanStep_eq_next.2 ⟨rfl, by decide, rfl⟩, ?_⟩
  decide +kernel

/-- Butterfly (1, 5) of stage 8, group 1, forward: weights (23170, -23170), or (11585, -11585) on a shift stage. -/
def pairBase (m : HalveMode) (shift : Bool) : State :=
  { at_ .bfly with stage := 8#4, step := 4#11, g := 1#10, i := 1#10, shift := shift, halveMode := m }

/-- The same with its two samples. -/
def pairAt (m : HalveMode) (shift : Bool) (nearRe nearIm farRe farIm : Word) : State :=
  putAll [(.re, 1, nearRe), (.im, 1, nearIm), (.re, 5, farRe), (.im, 5, farIm)] (pairBase m shift)

theorem memWf_pairBase (m : HalveMode) (shift : Bool) : (pairBase m shift).memWf := memWf_reset

/-- V4, row 8 (the real sum wraps), row 4, and row 4F (the same words in `HALVE_MODE` `FLOOR`). -/
theorem test_bflyStep_pairs :
    (∃ t, exec .bflyStep (pairAt .trunc false 16383 0 16383 16383) = .next t ∧ t.readSample .re 1 = -25985 ∧
      t.readSample .im 1 = 0 ∧ t.readSample .re 5 = -6785 ∧ t.readSample .im 5 = 0 ∧ t.i = 9#10) ∧
    (∃ t, exec .bflyStep (pairAt .trunc true 1001 (-2001) 3001 4001) = .next t ∧ t.readSample .re 1 = 2976 ∧
      t.readSample .im 1 = -646 ∧ t.readSample .re 5 = -1976 ∧ t.readSample .im 5 = -1354 ∧ t.i = 9#10) ∧
    (∃ t, exec .bflyStep (pairAt .floor true 1001 (-2001) 3001 4001) = .next t ∧ t.readSample .re 1 = 2976 ∧
      t.readSample .im 1 = -647 ∧ t.readSample .re 5 = -1976 ∧ t.readSample .im 5 = -1355 ∧ t.i = 9#10) := by
  refine ⟨?_, ?_, ?_⟩ <;>
  · refine ⟨_, execBflyStep_eq_next.2 ⟨rfl, by decide, 128#9, 5#10, by decide, by decide, rfl⟩, ?_⟩
    have hw : ∀ m sh a b c d, (pairAt m sh a b c d).memWf := fun m sh _ _ _ _ => memWf_putAll _ (memWf_pairBase m sh)
    rw [readSample_bflyAdvance, readSample_bflyAdvance, readSample_bflyAdvance, readSample_bflyAdvance,
      readSample_bfly (hw _ _ _ _ _ _) (by decide), readSample_bfly (hw _ _ _ _ _ _) (by decide),
      readSample_bfly (hw _ _ _ _ _ _) (by decide), readSample_bfly (hw _ _ _ _ _ _) (by decide)]
    simp only [pairAt, readSample_putAll _ (memWf_pairBase _ _)]
    decide +kernel
/-- P3, step 16385: the last butterfly of the last stage, a shift stage. The
words are those of V4 row 5: near 32767 halves to 16383 and a far word of 0 adds nothing. -/
theorem test_bflyStep_done :
    let s := putAll [(.re, 511, 32767), (.im, 511, 0), (.re, 1023, 0), (.im, 1023, 0)]
      { at_ .bfly with stage := 1#4, step := 512#11, g := 511#10, i := 511#10, shift := true, scale := 2#4 }
    ∃ t, exec .bflyStep s = .next t ∧ t.readSample .re 511 = 16383 ∧ t.readSample .re 1023 = 16383 ∧ t.phase = .done ∧
      t.stage = 0#4 ∧ t.step = 1024#11 ∧ t.shift = true ∧ t.scale = 2#4 ∧ t.g = 0#10 ∧ t.i = 0#10 := by
  intro s
  have hp : State.memWf { at_ .bfly with
    stage := 1#4, step := 512#11, g := 511#10, i := 511#10, shift := true, scale := 2#4 } := memWf_reset
  have hw : s.memWf := memWf_putAll _ hp
  refine ⟨_, execBflyStep_eq_next.2 ⟨rfl, by decide, 511#9, 1023#10, by decide, by decide, rfl⟩, ?_⟩
  rw [readSample_bflyAdvance, readSample_bflyAdvance, readSample_bfly hw (by decide), readSample_bfly hw (by decide)]
  simp only [s, readSample_putAll _ hp]
  decide +kernel

/-! ## One step -/

/-- A read presented after reset: the next micro-step returns the word, and the one after it returns nothing. -/
theorem test_step_read : ∃ t, step { State.reset with re := [(0, 7#16)], host := [line (.hrdRe 0)] } = .next t ∧
    t.hrdata = some 7#16 ∧ t.host = [] := ⟨_, rfl, by decide, by decide⟩
/-- P4, the last line: `reset` asserted while busy, with a `start` beside it. -/
theorem test_step_reset : ∃ t, step { at_ .scan with shift := true, inv := true, host :=
    [{ resetPulse with start := true }] } = .next t ∧ t.registersReset ∧ t.host = [] := ⟨_, rfl, by decide, rfl⟩
/-- `withFetchWord` places a command, an access and a phase code where the next step takes them from. -/
theorem test_withFetchWord :
    step (State.reset.withFetchWord 1 1) = .next (State.reset.startTransform true) ∧
      (∃ t, step (State.reset.withFetchWord 3 1) = .next t ∧ t.phase = .perm ∧ t.idx = 1#10) ∧
      step (State.reset.withFetchWord 28 0x0000000) =
        .next { State.reset with hrdata := some (Config.powerUpWord .re 0#10) } := by
  exact ⟨rfl, ⟨_, rfl, by decide +kernel⟩, rfl⟩

/-! ## Witnesses: a state and operands that meet all hypotheses of a statement, and each clause of it -/

/-- `ResetInputDominates`: reset asserted together with a start while scanning. -/
theorem witness_ResetInputDominates :
    let s := { at_ .scan with host := [{ resetPulse with start := true }] }
    s.pins.reset = true := rfl

/-- `DecodeInvertsEncode`: a well-formed write; a read word that is its own encoding; one that differs in `wdata`. -/
theorem witness_DecodeInvertsEncode :
    Instr.wellFormed (.hwrIm 1023 0xFFFF) = true ∧ decode (.hacc 0x0000000#28) = .ok (.hrdRe 0) ∧
      decode (.hacc 0x7FFFFFF#28) = .ok (.hrdIm 1023) := by decide

/-- `StepRunsDecodedOperations`: an accepted start, a start while busy, a step without access, and one with an access. -/
theorem witness_StepRunsDecodedOperations :
    (let s := { State.reset with host := [line .fftInv] }
     s.pins.reset = false ∧ s.pins.start = true ∧ s.busy = false ∧ s.pins.hvalid = false ∧
       decode s.engineWord = .ok .fftInv) ∧
    (let s := { at_ .bfly with host := [line .fftFwd] }
     s.pins.reset = false ∧ s.pins.start = true ∧ s.busy = true ∧ decode s.engineWord = .ok .bflyStep) ∧
    (let s := { at_ .done with host := [line (.hwrRe 1023 1)] }
     s.pins.reset = false ∧ s.pins.start = false ∧ s.pins.hvalid = true ∧
       decode (.hacc s.pins.hacc) = .ok (.hwrRe 1023 1) ∧ decode s.engineWord = .ok .doneHold) := by decide

/-- `PresentedTableWordRunsAfterReset`: the largest access word, in the table's width and in whole bytes. -/
theorem witness_PresentedTableWordRunsAfterReset :
    decodeTableWord 28 0xFFFFFFF = some (.hwrIm 1023 0xFFFF) ∧ decodeTableWord 32 0x3FF0000 = some (.hrdRe 1023) ∧
      decodeTableWord 8 4 = some .doneHold ∧ decodeTableWord 1 0 = some .fftFwd := by decide

/-- `BusyEngineIgnoresStart`. -/
theorem witness_BusyEngineIgnoresStart :
    (at_ .perm).busy = true ∧ HostInput.quiet.reset = false ∧
      State.host { at_ .perm with host := [HostInput.quiet] } = HostInput.quiet :: [] := by decide

/-- `AccessPrecedesStart`: a write and a read beside an inverse start, of the last word of `IM`. -/
theorem witness_AccessPrecedesStart :
    (let s := { State.reset with host := [⟨false, true, true, true, haccWord 1#1 1#1 1023 0x8000⟩] }
     s.memWf ∧ s.busy = false ∧ s.registersDefined = true ∧
       s.host = ⟨false, true, true, true, haccWord 1#1 (if Channel.im = .re then 0#1 else 1#1) 1023 0x8000⟩ :: []) ∧
    (let s := { State.reset with host := [⟨false, true, true, true, haccWord 0#1 1#1 1023 0⟩] }
     s.memWf ∧ s.busy = false ∧ s.registersDefined = true ∧
       s.host = ⟨false, true, true, true, haccWord 0#1 (if Channel.im = .re then 0#1 else 1#1) 1023 0⟩ :: []) :=
  ⟨⟨memWf_reset, rfl, by decide, rfl⟩, memWf_reset, rfl, by decide, rfl⟩

/-- `CommandStartsTransform`: a finished transform with the largest scale, and a busy engine. -/
theorem witness_CommandStartsTransform :
    (let s := { at_ .done with scale := 10#4 }; s.busy = false ∧ s.registersDefined = true) ∧
      (at_ .bfly).busy = true := by decide

/-- `HostReadReturnsWord`, `HostWriteStoresWord`. -/
theorem witness_HostAccesses : State.reset.memWf ∧ State.reset.busy = false ∧ (at_ .done).busy = false :=
  ⟨memWf_reset, rfl, rfl⟩

/-- `HostAccessWhileBusyIsRefused`: both cases, and a hold that answers a next state. -/
theorem witness_HostAccessWhileBusyIsRefused :
    (at_ .scan).busy = true ∧ (at_ .done).busy = false ∧ (∃ t, exec .doneHold (at_ .done) = .next t) ∧
      ∃ t, exec .idleHold (at_ .idle) = .next t := ⟨rfl, rfl, ⟨_, rfl⟩, ⟨_, rfl⟩⟩

/-- `HoldWaitsForStart`: each phase, with and without a start. -/
theorem witness_HoldWaitsForStart :
    (let s := State.reset; s.registersDefined = true ∧ s.phase = .idle ∧ s.pins.start = false) ∧
    (let s := { State.reset with host := [line .fftInv] }
     s.registersDefined = true ∧ s.phase = .idle ∧ s.pins.start = true) ∧
    (let s := { at_ .done with scale := 10#4 }; s.registersDefined = true ∧ s.phase = .done ∧ s.pins.start = false) ∧
    (let s := { at_ .done with host := [line .fftFwd] }
     s.registersDefined = true ∧ s.phase = .done ∧ s.pins.start = true) := by decide

/-- `PermStepSwapsOnePair`: a swap, no swap at index 1022, and no swap at the last index. -/
theorem witness_PermStepSwapsOnePair :
    (let s := { at_ .perm with idx := 1#10 }
     s.memWf ∧ s.phase = .perm ∧ s.registersDefined = true ∧ s.idx < brRead s.br s.idx ∧ s.idx.toNat < 1023) ∧
    (let s := { at_ .perm with idx := 1022#10 }
     s.memWf ∧ s.phase = .perm ∧ s.registersDefined = true ∧ ¬ s.idx < brRead s.br s.idx ∧ s.idx.toNat < 1023) ∧
    (let s := { at_ .perm with idx := 1023#10 }
     s.memWf ∧ s.phase = .perm ∧ s.registersDefined = true ∧ ¬ s.idx < brRead s.br s.idx ∧ s.idx.toNat = 1023) :=
  ⟨⟨memWf_reset, rfl, by decide, by decide +kernel, by decide⟩,
    ⟨memWf_reset, rfl, by decide, by decide +kernel, by decide⟩, memWf_reset, rfl, by decide, by decide +kernel, rfl⟩

/-- `ScanStepAccumulatesShift`: index 1022 and the last index. -/
theorem witness_ScanStepAccumulatesShift :
    (let s := { at_ .scan with idx := 1022#10 }; s.phase = .scan ∧ s.registersDefined = true ∧ s.idx.toNat < 1023) ∧
      let s := { at_ .scan with idx := 1023#10, scale := 9#4, shift := true }
      s.phase = .scan ∧ s.registersDefined = true ∧ s.idx.toNat = 1023 := by decide

/-- `BflyStepComputesOneButterfly`: the last butterfly of the last stage, phase index 511, and the first of the first. -/
theorem witness_BflyStepComputesOneButterfly :
    (let s := { at_ .bfly with stage := 1#4, step := 512#11, g := 511#10, i := 511#10 }
     s.memWf ∧ s.phase = .bfly ∧ s.registersDefined = true ∧ 1 ≤ s.stage.toNat ∧
       s.g.toNat < 2 ^ (10 - s.stage.toNat) ∧ (511#9).toNat = s.g.toNat * 2 ^ (s.stage.toNat - 1) ∧
       (1023#10).toNat = s.i.toNat + s.step.toNat) ∧
    (let s := at_ .bfly
     s.memWf ∧ s.phase = .bfly ∧ s.registersDefined = true ∧ 1 ≤ s.stage.toNat ∧
       s.g.toNat < 2 ^ (10 - s.stage.toNat) ∧ (0#9).toNat = s.g.toNat * 2 ^ (s.stage.toNat - 1) ∧
       (1#10).toNat = s.i.toNat + s.step.toNat) :=
  ⟨⟨memWf_reset, rfl, by decide, by decide, by decide, by decide, by decide⟩, memWf_reset, rfl, by decide, by decide,
    by decide, by decide, by decide⟩

/-- `BflyStepAdvancesCounters`: the next butterfly, the next group, the next stage, and `DONE`. -/
theorem witness_BflyStepAdvancesCounters :
    let ok := fun s : State => s.phase = .bfly ∧ s.registersDefined = true ∧ 1 ≤ s.stage.toNat ∧
      s.g.toNat < 2 ^ (10 - s.stage.toNat) ∧ s.i.toNat + s.step.toNat < 1024
    (let s := { at_ .bfly with i := 1020#10 }; ok s ∧ s.i.toNat + 2 * s.step.toNat < 1024) ∧
    (let s := { at_ .bfly with stage := 9#4, step := 2#11, i := 1020#10 }
     ok s ∧ 1024 ≤ s.i.toNat + 2 * s.step.toNat ∧ s.g.toNat + 1 < s.step.toNat) ∧
    (let s := { at_ .bfly with i := 1022#10 }
     ok s ∧ 1024 ≤ s.i.toNat + 2 * s.step.toNat ∧ s.step.toNat ≤ s.g.toNat + 1 ∧ s.stage ≠ 1#4) ∧
    (let s := { at_ .bfly with stage := 1#4, step := 512#11, g := 511#10, i := 511#10 }
     ok s ∧ 1024 ≤ s.i.toNat + 2 * s.step.toNat ∧ s.step.toNat ≤ s.g.toNat + 1 ∧ s.stage = 1#4) := by decide

/-- `MeaninglessRegistersHaveNoStep`: each register at its first value without meaning, and each index that names no
word. -/
theorem witness_MeaninglessRegistersHaveNoStep :
    (let s := { at_ .done with scale := 11#4 }; s.registersDefined = false ∧ s.busy = false) ∧
    State.registersDefined { at_ .scan with stage := 11#4 } = false ∧
    State.registersDefined { at_ .perm with step := 0#11 } = false ∧
    State.registersDefined { at_ .bfly with step := 1025#11 } = false ∧
    (let s := { at_ .bfly with stage := 0#4 }; s.registersDefined = true ∧ s.phase = .bfly ∧ s.stage = 0#4) ∧
    (let s := { at_ .bfly with g := 1#10 }
     s.registersDefined = true ∧ s.phase = .bfly ∧ 2 ^ (10 - s.stage.toNat) ≤ s.g.toNat) ∧
    (let s := { at_ .bfly with i := 1023#10 }
     s.registersDefined = true ∧ s.phase = .bfly ∧ 1024 ≤ s.i.toNat + s.step.toNat) := by decide

/-- `MicroOperationRunsOnlyInItsPhase`. -/
theorem witness_MicroOperationRunsOnlyInItsPhase :
    (at_ .perm).phase ≠ .idle ∧ (at_ .scan).phase ≠ .perm ∧ (at_ .bfly).phase ≠ .scan ∧ (at_ .done).phase ≠ .bfly ∧
      (at_ .idle).phase ≠ .done := by decide

/-- `EachFieldHasItsWriters`: a start that changes `INV` and `SCALE`, a scan step that changes `SCALE`, a read, a write. -/
theorem witness_EachFieldHasItsWriters :
    (let s := { at_ .done with scale := 2#4 }
     ∃ t, exec .fftInv s = .next t ∧ t.inv ≠ s.inv ∧ t.scale ≠ s.scale) ∧
    (let s := { at_ .scan with idx := 1023#10, shift := true, re := [(1023, 0#16)], im := [(1023, 0#16)] }
     ∃ t, exec .scanStep s = .next t ∧ t.scale ≠ s.scale) ∧
    (let s := { State.reset with im := [(0, 5#16)] }
     ∃ t, exec (.hrdIm 0) s = .next t ∧ t.hrdata ≠ s.hrdata) ∧
    (let s := State.reset.writeSample .re 0 1
     ∃ t, exec (.hwrRe 0 2) s = .next t ∧ t.readSample .re 0 ≠ s.readSample .re 0) := by
  refine ⟨⟨_, rfl, by decide, by decide⟩, ⟨_, execScanStep_eq_next.2 ⟨rfl, by decide, rfl⟩, by decide +kernel⟩,
    ⟨_, rfl, by decide⟩, ⟨_, rfl, ?_⟩⟩
  rw [readSample_writeSample_self (memWf_writeSample memWf_reset _ _ _), readSample_writeSample_self memWf_reset]
  decide

/-- `FixMpyRoundsHalfUp` and `NegationOverflowsOnlyAtTheMinimum`: both cases. -/
theorem witness_MinimumAndNot :
    (BitVec.toInt (-32768#16) = -32768) ∧ ¬ (BitVec.toInt 32767#16 = -32768) := by decide

/-- `EngineProductsAreNotNarrowed`: a ROM of the smallest admitted word, and that word as first operand. -/
theorem witness_EngineProductsAreNotNarrowed :
    (∀ k : Fin 769, ((Vector.replicate 769 (-32767#16))[k.val]'k.isLt).toInt ≠ -32768) ∧
      -32767 ≤ BitVec.toInt (-32767#16) := by
  refine ⟨fun k => ?_, by decide⟩
  rw [Vector.getElem_replicate]
  decide

/-- `HalveRoundsByMode`: even, odd positive, odd negative. -/
theorem witness_HalveRoundsByMode :
    BitVec.toInt (-32768#16) % 2 = 0 ∧ (BitVec.toInt 32767#16 % 2 = 1 ∧ 0 < BitVec.toInt 32767#16) ∧
      (BitVec.toInt (-32767#16) % 2 = 1 ∧ BitVec.toInt (-32767#16) < 0 ∧ BitVec.toInt (-32767#16) ≠ -32768) := by decide

/-- `SmallOperandsNeverWrap`, at its bounds. -/
theorem witness_SmallOperandsNeverWrap :
    |BitVec.toInt (-32767#16)| ≤ 32767 ∧ |BitVec.toInt 32767#16| ≤ 32767 ∧ |BitVec.toInt 10922#16| ≤ 10922 ∧
      |BitVec.toInt (-10922#16)| ≤ 10922 := by decide

/-- `UnitWeightIsNearlyIdentity`: the ends of the three ranges. -/
theorem witness_UnitWeightIsNearlyIdentity :
    (-16383 ≤ BitVec.toInt 16384#16 ∧ BitVec.toInt 16384#16 ≤ 16384) ∧ BitVec.toInt (-16384#16) ≤ -16384 ∧
      16385 ≤ BitVec.toInt 16385#16 := by decide

/-- `BitReversalTableIsAnInvolution`, second clause: equal entries. -/
theorem witness_BitReversalTableIsAnInvolution : brRead bitReversalRom 1023 = brRead bitReversalRom 1023 := rfl

/-- `EngineIndicesStayInRange`: the last butterfly of stage 1 and of stage 10. -/
theorem witness_EngineIndicesStayInRange :
    (1 ≤ (1#4).toNat ∧ (1#4).toNat ≤ 10 ∧ (511#10).toNat < stepOfStage (1#4).toNat ∧ 0 < 512 / stepOfStage (1#4).toNat) ∧
      (1 ≤ (10#4).toNat ∧ (10#4).toNat ≤ 10 ∧ (0#10).toNat < stepOfStage (10#4).toNat ∧
        511 < 512 / stepOfStage (10#4).toNat) := by decide

/-- `StagePairsPartitionTheSamples`: the last butterfly of the last stage, and of the first; sample 1023 is far in both. -/
theorem witness_StagePairsPartitionTheSamples :
    (1 ≤ 1 ∧ 1 ≤ 10 ∧ 511 < stepOfStage 1 ∧ 0 < 512 / stepOfStage 1 ∧ passFarIndex (stepOfStage 1) 511 0 = 1023#10) ∧
      (1 ≤ 10 ∧ 10 ≤ 10 ∧ 0 < stepOfStage 10 ∧ 511 < 512 / stepOfStage 10 ∧
        nearIndex (stepOfStage 10) 0 511 = 1022#10 ∧ passFarIndex (stepOfStage 10) 0 511 = 1023#10) := by decide

/-- `StagePassComputesEveryButterfly`, `StageOfSmallSamplesNeverWraps`: all words 0, a ROM of the smallest admitted word,
the last butterfly of the last stage and of the first. -/
theorem witness_StagePass :
    ∃ s : State, s.memWf ∧ s.tw = Vector.replicate 769 (-32767#16) ∧
      (∀ k : Fin 769, (s.tw[k.val]'k.isLt).toInt ≠ -32768) ∧ (∀ c k, |(s.readSample c k).toInt| ≤ 10922) ∧
      (1 ≤ 1 ∧ 1 ≤ 10 ∧ 511 < stepOfStage 1 ∧ 0 < 512 / stepOfStage 1) ∧
      (1 ≤ 10 ∧ 10 ≤ 10 ∧ 0 < stepOfStage 10 ∧ 511 < 512 / stepOfStage 10) := by
  obtain ⟨hw, -, hz⟩ := zeroed_spec
  generalize zeroed = z at hw hz
  refine ⟨{ z with tw := Vector.replicate 769 (-32767#16) }, hw, rfl, fun k => ?_, fun c k => ?_, by decide, by decide⟩
  · rw [Vector.getElem_replicate]
    decide
  · have h : State.readSample c k { z with tw := Vector.replicate 769 (-32767#16) } = 0#16 :=
      (readSample_congr rfl rfl c k).trans (hz c k)
    rw [h]
    decide

/-- `DirectionsDifferInTheSineSignOnly`: both admitted cases of the sine clause, and a permutation step and a scan step
that answer. -/
theorem witness_DirectionsDifferInTheSineSignOnly :
    (HalveMode.trunc = .trunc ∨ true = false) ∧ (HalveMode.floor = .trunc ∨ false = false) ∧ (∃ t, exec .permStep (at_ .perm) = .next t) ∧ ∃ t, exec .scanStep (at_ .scan) = .next t :=
  ⟨.inl rfl, .inr rfl, ⟨_, execPermStep_eq_next.2 ⟨rfl, by decide, rfl⟩⟩, ⟨_, execScanStep_eq_next.2 ⟨rfl, by decide, rfl⟩⟩⟩

/-- The last butterfly of a transform satisfies `Inv`, with the largest scale. -/
def lastButterfly : State :=
  { at_ .bfly with stage := 1#4, step := 512#11, g := 511#10, i := 511#10, shift := true, scale := 10#4 }

theorem lastButterfly_inv : Inv lastButterfly where
  re := Memory.wf_nil _
  im := Memory.wf_nil _
  tw := rfl
  br := rfl
  sequencer := by simp [SequencerInv, lastButterfly, at_, State.atPhase]

/-- `StepKeepsInv`: the step from that state to `DONE`. -/
theorem witness_StepKeepsInv : Inv lastButterfly ∧ ∃ t, step lastButterfly = .next t := by
  have h : execBflyStep (lastButterfly.setHrdata none) = .next _ :=
    execBflyStep_eq_next.2 ⟨rfl, by decide, 511#9, 1023#10, by decide, by decide, rfl⟩
  exact ⟨lastButterfly_inv, _, step_eq_next.2 (.inr ⟨rfl, _, _, rfl, h, rfl⟩)⟩

/-- `InvGivesSpecInvariants`: a state of each kind. -/
theorem witness_InvGivesSpecInvariants :
    Inv lastButterfly ∧ lastButterfly.phase = .bfly ∧ Inv (at_ .scan) ∧ (at_ .scan).phase = .scan ∧ Inv (at_ .done) ∧
      (at_ .done).phase = .done :=
  ⟨lastButterfly_inv, rfl, ⟨Memory.wf_nil _, Memory.wf_nil _, rfl, rfl, by
    simp [SequencerInv, at_, State.atPhase]⟩, rfl, ⟨Memory.wf_nil _, Memory.wf_nil _, rfl, rfl, by
    simp [SequencerInv, at_, State.atPhase]⟩, rfl⟩

/-- `StepAnswersWhileHostKeepsExclusion`: the host keeps its exclusion, and breaks it. -/
theorem witness_StepAnswersWhileHostKeepsExclusion :
    Inv lastButterfly ∧ lastButterfly.hostExcluded = true ∧ Inv { lastButterfly with host := [line (.hrdRe 0)] } ∧
      State.hostExcluded { lastButterfly with host := [line (.hrdRe 0)] } = false :=
  ⟨lastButterfly_inv, rfl, ⟨Memory.wf_nil _, Memory.wf_nil _, rfl, rfl, lastButterfly_inv.sequencer⟩, rfl⟩

/-- `CanonicalMemoriesWithEqualReadsAreEqual`: the zeroed memory, twice. -/
theorem witness_CanonicalMemoriesWithEqualReadsAreEqual :
    Memory.wf .re zeroed.re ∧ ∀ k, Memory.read .re zeroed.re k = Memory.read .re zeroed.re k :=
  ⟨zeroed_spec.1.1, fun _ => rfl⟩

/-- `PermuteReversesIndices`, `PermuteIsItsOwnInverse`, `FirstStageIsDirectionFree`. -/
theorem witness_Permute :
    let s := putAll [(.re, 1, 7)] State.reset
    s.memWf ∧ s.br = bitReversalRom ∧ s.tw = twiddleRom :=
  ⟨memWf_putAll _ memWf_reset, by simp [putAll], by simp [putAll]⟩

/-- `ScanIsExistentialAndOrderFree` and `ZeroSignalTransformsToZero`: all words 0, hence in range. -/
theorem witness_ScanAndZeroSignal :
    zeroed.memWf ∧ zeroed.br = bitReversalRom ∧ (∀ c k, zeroed.readSample c k = 0#16) ∧
      ∀ c k, -16384 ≤ (zeroed.readSample c k).toInt ∧ (zeroed.readSample c k).toInt ≤ 16383 :=
  ⟨zeroed_spec.1, zeroed_spec.2.1, zeroed_spec.2.2, fun c k => by rw [zeroed_spec.2.2]; decide⟩

/-- `DisjointButterfliesCommute`: two butterflies of the last stage. -/
theorem witness_DisjointButterfliesCommute : State.reset.memWf ∧ [(0 : Index), 512, 511, 1023].Nodup :=
  ⟨memWf_reset, by decide⟩

/-- `TransformDependsOnSamplesOnly`: the same samples under other registers and inputs. -/
theorem witness_TransformDependsOnSamplesOnly :
    let s := putAll [(.re, 1, 7)] State.reset
    let s' := { s with phase := .done, scale := 7#4, inv := true, shift := true, host := [line .fftFwd] }
    s.memWf ∧ s'.memWf ∧ s.sameSamples s' ∧ s.sameRoms s' := by
  intro s s'
  have hw : s.memWf := memWf_putAll _ memWf_reset
  exact ⟨hw, hw, fun c _ => readSample_congr rfl rfl _ _, rfl, rfl⟩

/-- `MicroStepsComputeTransform`, `TransformIsBusyUntilDone`: a command, then an ignored start, then nothing; from `IDLE`
and, with the registers of a finished transform, from `DONE`. -/
theorem witness_MicroSteps :
    (let s := { State.reset with host := line .fftInv :: [line .fftFwd] }
     s.busy = false ∧ s.registersDefined = true ∧ (line .fftInv).start = true ∧ (line .fftInv).undisturbing = true ∧
       ∀ q ∈ [line .fftFwd].take 16384, q.undisturbing = true) ∧
    (let s := { at_ .done with scale := 10#4, host := line .fftFwd :: [] }
     s.busy = false ∧ s.registersDefined = true ∧ (line .fftFwd).start = true ∧ (line .fftFwd).undisturbing = true ∧
       ∀ q ∈ ([] : List HostInput).take 16384, q.undisturbing = true) ∧ (1 ≤ 1 ∧ 1 ≤ 16384) ∧ 16384 ≤ 16384 := by
  have hf : (line .fftFwd).undisturbing = true := by decide
  refine ⟨⟨rfl, by decide, rfl, by decide, fun q hq => ?_⟩, ⟨rfl, by decide, rfl, hf, fun q hq => ?_⟩, by omega, le_rfl⟩
  · rw [List.mem_singleton.1 (List.mem_of_mem_take hq)]
    exact hf
  · simp at hq

/-- `ClearScriptZeroesEveryWord`. -/
theorem witness_ClearScriptZeroesEveryWord :
    let s := { State.reset with host := Sys2Proof.Machine.clear ++ [line .fftFwd] }
    s.memWf ∧ s.busy = false ∧ s.registersDefined = true ∧
      s.host = Sys2Proof.Machine.clear ++ [line .fftFwd] :=
  ⟨memWf_reset, rfl, by decide, rfl⟩

end Sys2Proof.Tests.Slice0
end

section
/-! PROOFS. What `wrap16` does to an integer: the signed value, the stored bit pattern, and the identity on words
(R9, 00_scope.md section 6). The later arithmetic reads every narrowed result through these three. -/

namespace Sys2Proof.Machine

/-- The balanced remainder of `BitVec.ofInt`, in the offset form R9 gives it. -/
theorem toInt_wrap16 (x : Int) : (wrap16 x).toInt = (x + 32768) % 65536 - 32768 := by
  rw [wrap16, BitVec.toInt_ofInt, Int.bmod_def]
  omega

/-- `u16` of the narrowed value (R9). -/
theorem toNat_wrap16 (x : Int) : ((wrap16 x).toNat : Int) = x % 65536 := by
  rw [wrap16, BitVec.toNat_ofInt]
  exact Int.toNat_of_nonneg (Int.emod_nonneg x (by decide))

@[simp] theorem wrap16_toInt (w : Word) : wrap16 w.toInt = w := BitVec.ofInt_toInt

end Sys2Proof.Machine

/-- Settles O24: the signed value, the unsigned image and the identity on words, each by its own lemma. -/
theorem wrapKeepsLowSixteenBits : Obligations.WrapKeepsLowSixteenBits :=
  ⟨fun x => ⟨Sys2Proof.Machine.toInt_wrap16 x, Sys2Proof.Machine.toNat_wrap16 x⟩, Sys2Proof.Machine.wrap16_toInt⟩
end

section
/-! PROOFS. The outputs `busy` and `done` as functions of `PHASE` (R27). -/

namespace Sys2Proof.Machine

theorem busy_eq_true {s : State} : s.busy = true ↔ s.phase = .perm ∨ s.phase = .scan ∨ s.phase = .bfly := by
  unfold State.busy
  cases s.phase <;> simp

theorem doneOut_eq_true {s : State} : s.doneOut = true ↔ s.phase = .done := by
  unfold State.doneOut
  cases s.phase <;> simp

end Sys2Proof.Machine

/-- Settles O3: `busy` and `done` by their phases; `scale` is `SCALE` by definition. -/
theorem statusOutputsFollowState : Obligations.StatusOutputsFollowState :=
  fun _ => ⟨Sys2Proof.Machine.busy_eq_true, Sys2Proof.Machine.doneOut_eq_true, rfl⟩
end

section
/-! PROOFS. What an instruction that answers a next state can do, said once as a relation over all eleven instructions,
and from it which instruction may change which field (R22 to R25, R60). -/

namespace Sys2Proof.Machine

/-- The instructions that may perform `START`: the two commands and the two holds (R222, R223, R227). -/
def startInstrs : List Instr := [.fftFwd, .fftInv, .idleHold, .doneHold]

/-- The next state `t` an instruction may answer from `s`. -/
inductive ExecEffect (s : State) : Instr → State → Prop
  /-- A hold without `start`, or a command while busy (R223, R227, R233). -/
  | unchanged (i : Instr) (hi : i ∈ startInstrs) : ExecEffect s i s
  /-- `START`, by a command or by a hold that sees `start` (R222). -/
  | started (i : Instr) (hi : i ∈ startInstrs) (inverse : Bool) (hb : s.busy = false) :
      ExecEffect s i (s.startTransform inverse)
  | readRe (k : Index) (hb : s.busy = false) : ExecEffect s (.hrdRe k) (s.setHrdata (some (s.readSample .re k)))
  | readIm (k : Index) (hb : s.busy = false) : ExecEffect s (.hrdIm k) (s.setHrdata (some (s.readSample .im k)))
  | wroteRe (k : Index) (v : Word) (hb : s.busy = false) : ExecEffect s (.hwrRe k v) (s.writeSample .re k v)
  | wroteIm (k : Index) (v : Word) (hb : s.busy = false) : ExecEffect s (.hwrIm k v) (s.writeSample .im k v)
  | permuted (hp : s.phase = .perm) : ExecEffect s .permStep (permAdvance (permSwap s.idx s))
  | scanned (hp : s.phase = .scan) : ExecEffect s .scanStep (scanAdvance s)
  | combined (hp : s.phase = .bfly) (jp : BitVec 9) (j : Index) (hjp : twiddleIndex s.g s.stage = some jp)
      (hj : farIndex s.i s.step = some j) :
      ExecEffect s .bflyStep (bflyAdvance (bfly s.halveMode s.i j
        (twiddleWeights s.halveMode s.tw jp s.inv s.shift).1
        (twiddleWeights s.halveMode s.tw jp s.inv s.shift).2 s.shift s))

/-- A command that answers is ignored while busy and starts a transform otherwise. -/
theorem execEffect_of_command {b : Bool} {s t : State} {i : Instr} (hi : i ∈ startInstrs)
    (h : command b s = .next t) : ExecEffect s i t := by
  obtain ⟨-, rfl⟩ | ⟨hb, -, rfl⟩ := command_eq_next.1 h
  · exact .unchanged i hi
  · exact .started i hi b hb

/-- A hold that answers, in a phase that is not busy, starts a transform or changes nothing. -/
theorem execEffect_of_hold {p : Phase} {s t : State} {i : Instr} (hi : i ∈ startInstrs) (hp : p = .idle ∨ p = .done)
    (h : hold p s = .next t) : ExecEffect s i t := by
  obtain ⟨rfl, -, rfl⟩ := hold_eq_next.1 h
  split
  · exact .started i hi _ (busy_eq_false.2 hp)
  · exact .unchanged i hi

theorem execEffect_of_exec {i : Instr} {s t : State} (h : exec i s = .next t) : ExecEffect s i t := by
  cases i with
  | fftFwd => exact execEffect_of_command (by decide) h
  | fftInv => exact execEffect_of_command (by decide) h
  | hrdRe k => obtain ⟨hb, rfl⟩ := execHrdRe_eq_next.1 h; exact .readRe k hb
  | hrdIm k => obtain ⟨hb, rfl⟩ := execHrdIm_eq_next.1 h; exact .readIm k hb
  | hwrRe k v => obtain ⟨hb, rfl⟩ := execHwrRe_eq_next.1 h; exact .wroteRe k v hb
  | hwrIm k v => obtain ⟨hb, rfl⟩ := execHwrIm_eq_next.1 h; exact .wroteIm k v hb
  | idleHold => exact execEffect_of_hold (by decide) (.inl rfl) h
  | permStep => obtain ⟨hp, -, rfl⟩ := execPermStep_eq_next.1 h; exact .permuted hp
  | scanStep => obtain ⟨hp, -, rfl⟩ := execScanStep_eq_next.1 h; exact .scanned hp
  | bflyStep => obtain ⟨hp, -, jp, j, hjp, hj, rfl⟩ := execBflyStep_eq_next.1 h; exact .combined hp jp j hjp hj
  | doneHold => exact execEffect_of_hold (by decide) (.inr rfl) h

/-! ## The writers of each field -/

/-- The scan counts a shift stage only with its last index, and only when the stage shifts (R225). -/
theorem scanAdvance_scale_of_ne {s : State} (h : (scanAdvance s).scale ≠ s.scale) :
    s.idx.toNat = 1023 ∧ (scanAdvance s).shift = true ∧ (scanAdvance s).scale = s.scale + 1#4 := by
  have := s.idx.isLt
  unfold scanAdvance at h ⊢
  by_cases hi : s.idx.toNat < 1023
  · simp [hi] at h
  · by_cases hs : s.scannedShift = true
    · simp only [hi, hs, if_true, if_false, and_true]
      omega
    · simp [hi, hs] at h

/-- A word that a write changed is the word the write names. -/
theorem eq_of_readSample_writeSample_ne {c d : Channel} {k l : Index} {v : Word} {s : State}
    (h : (s.writeSample c k v).readSample d l ≠ s.readSample d l) : c = d ∧ l = k := by
  by_contra hne
  exact h (readSample_writeSample_other (not_and_or.1 hne) v s)

namespace ExecEffect

variable {i : Instr} {s t : State}

/-- No instruction writes the ROMs, `HALVE_MODE` or the inputs. -/
theorem constants (h : ExecEffect s i t) : s.sameRoms t ∧ t.halveMode = s.halveMode ∧ t.host = s.host := by
  cases h <;> simp [State.sameRoms]

theorem inv_writer (h : ExecEffect s i t) (hne : t.inv ≠ s.inv) : s.busy = false ∧ t.phase = .perm := by
  cases h with
  | started _ _ _ hb => exact ⟨hb, rfl⟩
  | _ => simp at hne

theorem scale_writer (h : ExecEffect s i t) (hne : t.scale ≠ s.scale) :
    (s.busy = false ∧ t.phase = .perm ∧ t.scale = 0#4) ∨
      (i = .scanStep ∧ s.idx.toNat = 1023 ∧ t.shift = true ∧ t.scale = s.scale + 1#4) := by
  cases h with
  | started _ _ _ hb => exact .inl ⟨hb, rfl, rfl⟩
  | scanned => exact .inr ⟨rfl, scanAdvance_scale_of_ne hne⟩
  | _ => simp at hne

theorem hrdata_writer (h : ExecEffect s i t) (hne : t.hrdata ≠ s.hrdata) : ∃ k, i = .hrdRe k ∨ i = .hrdIm k := by
  cases h with
  | readRe k => exact ⟨k, .inl rfl⟩
  | readIm k => exact ⟨k, .inr rfl⟩
  | _ => simp at hne

theorem sample_writer (h : ExecEffect s i t) {c : Channel} {k : Index} (hne : t.readSample c k ≠ s.readSample c k) :
    (c = .re ∧ ∃ v, i = .hwrRe k v) ∨ (c = .im ∧ ∃ v, i = .hwrIm k v) ∨ i = .permStep ∨ i = .bflyStep := by
  cases h with
  | wroteRe k' v =>
    obtain ⟨rfl, rfl⟩ := eq_of_readSample_writeSample_ne hne
    exact .inl ⟨rfl, v, rfl⟩
  | wroteIm k' v =>
    obtain ⟨rfl, rfl⟩ := eq_of_readSample_writeSample_ne hne
    exact .inr (.inl ⟨rfl, v, rfl⟩)
  | permuted => exact .inr (.inr (.inl rfl))
  | combined => exact .inr (.inr (.inr rfl))
  | _ => simp at hne

end ExecEffect
end Sys2Proof.Machine

/-- Settles O23: each clause is the writer lemma of its field, over the effect of the instruction. -/
theorem eachFieldHasItsWriters : Obligations.EachFieldHasItsWriters := by
  intro i s t h
  have e := Sys2Proof.Machine.execEffect_of_exec h
  obtain ⟨roms, mode, host⟩ := e.constants
  exact ⟨roms, mode, host, e.inv_writer, e.scale_writer, e.hrdata_writer, fun _ _ => e.sample_writer⟩
end

section
/-! PROOFS. The state invariant (R36): it holds after reset, every micro-step keeps it, and what it says of the registers
in the terms of the spec. -/

namespace Sys2Proof.Machine

/-! ## The sequencer part, phase by phase -/

/-- The sequencer part speaks of the registers only. -/
theorem SequencerInv.congr {s t : State} (hs : SequencerInv s) (h : s.sameRegisters t) : SequencerInv t := by
  obtain ⟨hscale, hinv, hshift, hphase, hidx, hstage, hstep, hg, hi⟩ := h
  simpa only [SequencerInv, hscale, hinv, hshift, hphase, hidx, hstage, hstep, hg, hi] using hs

variable {s : State}

theorem sequencerInv_idle (hp : s.phase = .idle) :
    SequencerInv s ↔ s.scale = 0#4 ∧ s.inv = false ∧ s.shift = false ∧ s.idx = 0#10 ∧ s.stage = 0#4 ∧ s.step = 1#11 ∧
      s.g = 0#10 ∧ s.i = 0#10 := by
  simp only [SequencerInv, hp]

theorem sequencerInv_perm (hp : s.phase = .perm) :
    SequencerInv s ↔ s.scale = 0#4 ∧ s.shift = false ∧ s.stage = 10#4 ∧ s.step = 1#11 ∧ s.g = 0#10 ∧ s.i = 0#10 := by
  simp only [SequencerInv, hp]

theorem sequencerInv_scan (hp : s.phase = .scan) :
    SequencerInv s ↔ 1 ≤ s.stage.toNat ∧ s.scale.toNat + s.stage.toNat ≤ 10 ∧
      s.step.toNat = 2 ^ (10 - s.stage.toNat) ∧ s.g = 0#10 ∧ s.i = 0#10 := by
  simp only [SequencerInv, hp]

theorem sequencerInv_bfly (hp : s.phase = .bfly) :
    SequencerInv s ↔ 1 ≤ s.stage.toNat ∧ s.stage.toNat ≤ 10 ∧ s.scale.toNat + s.stage.toNat ≤ 11 ∧
      s.step.toNat = 2 ^ (10 - s.stage.toNat) ∧ s.idx = 0#10 ∧ s.g.toNat < s.step.toNat ∧
      s.i.toNat % (2 * s.step.toNat) = s.g.toNat ∧ s.i.toNat + s.step.toNat ≤ 1023 := by
  simp only [SequencerInv, hp]

theorem sequencerInv_done (hp : s.phase = .done) :
    SequencerInv s ↔ s.scale.toNat ≤ 10 ∧ s.stage = 0#4 ∧ s.step = 1024#11 ∧ s.idx = 0#10 ∧ s.g = 0#10 ∧
      s.i = 0#10 := by
  simp only [SequencerInv, hp]

theorem sequencerInv_of_registersReset (h : s.registersReset) : SequencerInv s := by
  obtain ⟨hscale, hinv, hshift, hphase, hrest⟩ := h
  exact (sequencerInv_idle hphase).2 ⟨hscale, hinv, hshift, hrest⟩

theorem sequencerInv_startTransform (b : Bool) (s : State) : SequencerInv (s.startTransform b) :=
  Iff.mpr (sequencerInv_perm rfl) ⟨rfl, rfl, rfl, rfl, rfl, rfl⟩

/-! ## The distance `STEP` of a stage (R180, R214) -/

/-- In a stage from 1 to 10, `2 * STEP` divides the 1024 samples into whole groups. -/
theorem two_mul_two_pow_sub_dvd (stage : Nat) (h : 1 ≤ stage) : 2 * 2 ^ (10 - stage) ∣ 1024 := by
  rw [← pow_succ']
  exact pow_dvd_pow 2 (show 10 - stage + 1 ≤ 10 by omega)

theorem two_pow_sub_pred {stage : Nat} (h : 1 ≤ stage) (h10 : stage ≤ 10) :
    2 ^ (10 - (stage - 1)) = 2 * 2 ^ (10 - stage) := by
  rw [← pow_succ', show 10 - (stage - 1) = 10 - stage + 1 by omega]

/-- A near index of group `g` has its far index among the 1024 samples. -/
theorem farIndex_in_range {i d : Nat} (hd : 2 * d ∣ 1024) (hg : i % (2 * d) < d) (hi : i < 1024) : i + d ≤ 1023 := by
  obtain ⟨e, he⟩ := hd
  have hgroups : 2 * d * (i / (2 * d) + 1) ≤ 2 * d * e := Nat.mul_le_mul_left _ (Nat.div_lt_of_lt_mul (he ▸ hi))
  have hsplit := Nat.div_add_mod i (2 * d)
  rw [Nat.mul_succ] at hgroups
  omega

/-! ## The advances of the counters keep it

`Iff.mpr (sequencerInv_… …)` lets the goal name the updated state before its phase is given. -/

theorem sequencerInv_permAdvance (hp : s.phase = .perm) (h : SequencerInv s) : SequencerInv (permAdvance s) := by
  obtain ⟨hscale, hshift, hstage, hstep, hg, hi⟩ := (sequencerInv_perm hp).1 h
  unfold permAdvance
  split
  · exact Iff.mpr (sequencerInv_perm hp) ⟨hscale, hshift, hstage, hstep, hg, hi⟩
  · exact Iff.mpr (sequencerInv_scan rfl) ⟨by simp, by simp [hscale], rfl, hg, hi⟩

theorem sequencerInv_scanAdvance (hp : s.phase = .scan) (h : SequencerInv s) : SequencerInv (scanAdvance s) := by
  obtain ⟨hstage, hscale, hstep, hg, hi⟩ := (sequencerInv_scan hp).1 h
  unfold scanAdvance
  dsimp only
  split
  · exact Iff.mpr (sequencerInv_scan hp) ⟨hstage, hscale, hstep, hg, hi⟩
  · have hpos : 0 < s.step.toNat := by rw [hstep]; positivity
    have hfar : 0 + s.step.toNat ≤ 1023 :=
      farIndex_in_range (hstep ▸ two_mul_two_pow_sub_dvd _ hstage) (by simpa using hpos) (by decide)
    have hcount : (if s.scannedShift then s.scale + 1#4 else s.scale).toNat ≤ s.scale.toNat + 1 := by
      split
      · simpa using Nat.mod_le _ _
      · omega
    exact (sequencerInv_bfly rfl).2
      ⟨hstage, by dsimp only; omega, by dsimp only; omega, hstep, rfl, hpos, Nat.zero_mod _, hfar⟩

/-- In order, the four cases of R226: the next butterfly, the next group, `DONE`, the scan of the next stage. -/
theorem sequencerInv_bflyAdvance (hp : s.phase = .bfly) (h : SequencerInv s) : SequencerInv (bflyAdvance s) := by
  obtain ⟨hstage, hstage10, hscale, hstep, hidx, hg, hi, -⟩ := (sequencerInv_bfly hp).1 h
  have hdvd : 2 * s.step.toNat ∣ 1024 := hstep ▸ two_mul_two_pow_sub_dvd _ hstage
  have hle : 2 * s.step.toNat ≤ 1024 := Nat.le_of_dvd (by decide) hdvd
  have hpred : (s.stage - 1#4).toNat = s.stage.toNat - 1 := BitVec.toNat_sub_of_le hstage
  unfold bflyAdvance
  split_ifs with hnext hgroup hlast
  · have hval : (BitVec.ofNat 10 (s.i.toNat + 2 * s.step.toNat)).toNat = s.i.toNat + 2 * s.step.toNat :=
      Nat.mod_eq_of_lt hnext
    have hmod : (s.i.toNat + 2 * s.step.toNat) % (2 * s.step.toNat) = s.g.toNat := by
      rw [Nat.add_mod_right, hi]
    refine Iff.mpr (sequencerInv_bfly hp) ⟨hstage, hstage10, hscale, hstep, hidx, hg, ?_, ?_⟩ <;> dsimp only <;>
      rw [hval]
    · exact hmod
    · exact farIndex_in_range hdvd (hmod ▸ hg) hnext
  · have hval : (s.g + 1#10).toNat = s.g.toNat + 1 := Nat.mod_eq_of_lt (by simp; omega)
    refine Iff.mpr (sequencerInv_bfly hp) ⟨hstage, hstage10, hscale, hstep, hidx, ?_, ?_, ?_⟩ <;> dsimp only <;>
      rw [hval]
    · exact hgroup
    · exact Nat.mod_eq_of_lt (by omega)
    · omega
  · have hzero : (s.stage - 1#4).toNat = 0 := by rw [hlast]; rfl
    have hone : s.stage.toNat = 1 := by omega
    have h512 : s.step.toNat = 512 := by simp [hstep, hone]
    exact Iff.mpr (sequencerInv_done rfl) ⟨by dsimp only; omega, rfl, by simp [h512], hidx, rfl, rfl⟩
  · have hpos : (s.stage - 1#4).toNat ≠ 0 := fun h0 => hlast (BitVec.eq_of_toNat_eq h0)
    have hdouble : (BitVec.ofNat 11 (2 * s.step.toNat)).toNat = 2 * s.step.toNat := Nat.mod_eq_of_lt (by omega)
    refine Iff.mpr (sequencerInv_scan rfl) ⟨?_, ?_, ?_, rfl, rfl⟩ <;> dsimp only
    · omega
    · omega
    · rw [hdouble, hpred, hstep, two_pow_sub_pred hstage hstage10]

/-! ## The whole invariant -/

theorem Inv.memWf (h : Inv s) : s.memWf := ⟨h.re, h.im⟩

/-- What an instruction may do keeps the canonical form of the memories. -/
theorem ExecEffect.memWf {i : Instr} {t : State} (e : ExecEffect s i t) (h : s.memWf) : t.memWf := by
  cases e with
  | unchanged => exact h
  | started => exact h
  | readRe => exact h
  | readIm => exact h
  | wroteRe k v => exact memWf_writeSample h .re k v
  | wroteIm k v => exact memWf_writeSample h .im k v
  | permuted => simpa [State.memWf] using memWf_permSwap h s.idx
  | scanned => simpa [State.memWf] using h
  | combined _ jp j => simpa [State.memWf] using memWf_bfly h s.halveMode s.i j _ _ s.shift

/-- What an instruction may do keeps the sequencer registers as their phase has them. -/
theorem ExecEffect.sequencerInv {i : Instr} {t : State} (e : ExecEffect s i t) (h : SequencerInv s) :
    SequencerInv t := by
  cases e with
  | unchanged => exact h
  | started _ _ b => exact sequencerInv_startTransform b s
  | readRe => exact h
  | readIm => exact h
  | wroteRe => exact h
  | wroteIm => exact h
  | permuted hp => exact sequencerInv_permAdvance (by simpa using hp) (h.congr (by simp [State.sameRegisters]))
  | scanned hp => exact sequencerInv_scanAdvance hp h
  | combined hp => exact sequencerInv_bflyAdvance (by simpa using hp) (h.congr (by simp [State.sameRegisters]))

/-- Every instruction that answers a next state keeps the invariant. -/
theorem exec_keeps_inv {i : Instr} {t : State} (h : Inv s) (he : exec i s = .next t) : Inv t := by
  have e := execEffect_of_exec he
  obtain ⟨⟨htw, hbr⟩, -⟩ := e.constants
  obtain ⟨hre, him⟩ := e.memWf h.memWf
  exact ⟨hre, him, htw.trans h.tw, hbr.trans h.br, e.sequencerInv h.sequencer⟩

/-- A word that runs to a next state runs the instruction it decodes to. -/
theorem exec_of_runWord {p : OpWord} {t : State} (h : runWord p s = .next t) : ∃ i, exec i s = .next t := by
  unfold runWord at h
  split at h
  · exact ⟨_, h⟩
  · cases h

theorem hostAccess_keeps_inv {t : State} (h : Inv s) (ha : hostAccess s = .next t) : Inv t := by
  obtain ⟨-, rfl⟩ | ⟨-, he⟩ := hostAccess_eq_next.1 ha
  · exact h
  · exact exec_keeps_inv h he

theorem engineOperation_keeps_inv {t : State} (h : Inv s) (ho : engineOperation s = .next t) : Inv t := by
  obtain ⟨i, he⟩ := exec_of_runWord ho
  exact exec_keeps_inv h he

theorem Inv.applyReset (h : Inv s) : Inv s.applyReset :=
  ⟨h.re, h.im, h.tw, h.br, sequencerInv_of_registersReset (by simp [State.registersReset])⟩

theorem Inv.setHrdata (h : Inv s) (v : Option Word) : Inv (s.setHrdata v) := ⟨h.re, h.im, h.tw, h.br, h.sequencer⟩

theorem Inv.popInput (h : Inv s) : Inv s.popInput := ⟨h.re, h.im, h.tw, h.br, h.sequencer⟩

theorem inv_reset : Inv State.reset :=
  ⟨Memory.wf_nil _, Memory.wf_nil _, rfl, rfl, sequencerInv_of_registersReset (by simp [State.registersReset])⟩

/-! ## What the invariant says in the terms of R36 -/

theorem two_pow_sub_bounds {stage : Nat} (h : 1 ≤ stage) : 1 ≤ 2 ^ (10 - stage) ∧ 2 ^ (10 - stage) ≤ 512 := by
  have := Nat.le_of_dvd (by decide) (two_mul_two_pow_sub_dvd stage h)
  exact ⟨Nat.one_le_two_pow, by omega⟩

/-- `SCALE`, `STAGE` and `STEP` during a stage: R36 (c) and the bound of U5. -/
theorem SequencerInv.stage_registers (h : SequencerInv s) (hp : s.phase = .scan ∨ s.phase = .bfly) :
    1 ≤ s.stage.toNat ∧ s.stage.toNat ≤ 10 ∧ s.step.toNat = 2 ^ (10 - s.stage.toNat) ∧ 1 ≤ s.step.toNat ∧
      s.step.toNat ≤ 512 ∧ s.scale.toNat ≤ 11 - s.stage.toNat := by
  have key : 1 ≤ s.stage.toNat ∧ s.stage.toNat ≤ 10 ∧ s.scale.toNat + s.stage.toNat ≤ 11 ∧
      s.step.toNat = 2 ^ (10 - s.stage.toNat) := by
    obtain hp | hp := hp
    · obtain ⟨hstage, hscale, hstep, -⟩ := (sequencerInv_scan hp).1 h
      exact ⟨hstage, by omega, by omega, hstep⟩
    · obtain ⟨hstage, hstage10, hscale, hstep, -⟩ := (sequencerInv_bfly hp).1 h
      exact ⟨hstage, hstage10, hscale, hstep⟩
  obtain ⟨hstage, hstage10, hscale, hstep⟩ := key
  obtain ⟨hpos, h512⟩ := two_pow_sub_bounds hstage
  exact ⟨hstage, hstage10, hstep, hstep ▸ hpos, hstep ▸ h512, by omega⟩

/-- R36 (b): `SCALE` never exceeds the number of stages. -/
theorem SequencerInv.scale_le (h : SequencerInv s) : s.scale.toNat ≤ 10 := by
  cases hp : s.phase with
  | idle =>
    obtain ⟨hscale, -⟩ := (sequencerInv_idle hp).1 h
    simp [hscale]
  | perm =>
    obtain ⟨hscale, -⟩ := (sequencerInv_perm hp).1 h
    simp [hscale]
  | scan =>
    obtain ⟨hstage, -, -, -, -, hscale⟩ := h.stage_registers (.inl hp)
    omega
  | bfly =>
    obtain ⟨hstage, -, -, -, -, hscale⟩ := h.stage_registers (.inr hp)
    omega
  | done => exact ((sequencerInv_done hp).1 h).1

end Sys2Proof.Machine

open Sys2Proof.Machine

/-- Settles O39: nothing is listed in the memories, and the registers hold their reset values. -/
theorem resetStateSatisfiesInv : Obligations.ResetStateSatisfiesInv := inv_reset

/-- Settles O40: `reset`, or a host access and an engine operation, each of which runs an instruction or nothing. -/
theorem stepKeepsInv : Obligations.StepKeepsInv := by
  intro s t h hst
  obtain ⟨-, rfl⟩ | ⟨-, s1, s2, ha, ho, rfl⟩ := step_eq_next.1 hst
  · exact h.applyReset.popInput
  · exact (engineOperation_keeps_inv (hostAccess_keeps_inv (h.setHrdata none) ha) ho).popInput

/-- Settles O41: each clause is read off the sequencer part for its phase. -/
theorem invGivesSpecInvariants : Obligations.InvGivesSpecInvariants := by
  intro s h
  have hs := h.sequencer
  refine ⟨hs.scale_le, hs.stage_registers, fun hp => ?_, fun hp => ?_, h.tw, h.br⟩
  · obtain ⟨-, -, -, -, -, hbfly⟩ := (sequencerInv_bfly hp).1 hs
    exact hbfly
  · obtain ⟨-, hstage, hstep, -⟩ := (sequencerInv_done hp).1 hs
    exact ⟨hstage, hstep⟩
end

section
/-! PROOFS. The indices a stage forms, as numbers (R102, R103): the twiddle index of a group, and the near and far index
of a butterfly, each within the memory it names (R74). -/

namespace Sys2Proof.Machine

/-! ## The bounds of the counters of a stage -/

/-- The groups of a stage times the twiddle stride are the half circle (R102). -/
theorem stepOfStage_mul_stride {stage : Nat} (h1 : 1 ≤ stage) (h10 : stage ≤ 10) :
    stepOfStage stage * 2 ^ (stage - 1) = 512 := by
  rw [stepOfStage, ← pow_add, show 10 - stage + (stage - 1) = 9 by omega]
  rfl

/-- The twiddle index of a group leaves room for one more stride. -/
theorem twiddle_add_stride_le {stage g : Nat} (h1 : 1 ≤ stage) (h10 : stage ≤ 10) (hg : g < stepOfStage stage) :
    g * 2 ^ (stage - 1) + 2 ^ (stage - 1) ≤ 512 :=
  calc g * 2 ^ (stage - 1) + 2 ^ (stage - 1) = (g + 1) * 2 ^ (stage - 1) := (Nat.succ_mul ..).symm
    _ ≤ stepOfStage stage * 2 ^ (stage - 1) := Nat.mul_le_mul_right _ hg
    _ = 512 := stepOfStage_mul_stride h1 h10

/-- The far index of butterfly `t` of group `g` is a sample index, whatever distance `step` the stage has. -/
theorem near_add_step_le {step g t : Nat} (hg : g < step) (ht : t < 512 / step) : g + 2 * step * t + step ≤ 1023 := by
  have hblocks : (t + 1) * step ≤ 512 := Nat.mul_le_of_le_div _ _ _ ht
  have hdouble : 2 * step * t = 2 * (t * step) := by ring
  rw [Nat.succ_mul] at hblocks
  omega

/-! ## The indices -/

theorem twiddleIndex_eq_some {g : Index} {stage : BitVec 4} (h1 : 1 ≤ stage.toNat) (h10 : stage.toNat ≤ 10)
    (hg : g.toNat < stepOfStage stage.toNat) : twiddleIndex g stage = some (passIndex stage.toNat g.toNat) :=
  if_pos ⟨h1, h10, hg⟩

theorem toNat_passIndex {stage g : Nat} (h1 : 1 ≤ stage) (h10 : stage ≤ 10) (hg : g < stepOfStage stage) :
    (passIndex stage g).toNat = g * 2 ^ (stage - 1) := by
  have hroom := twiddle_add_stride_le h1 h10 hg
  have hpos : 0 < 2 ^ (stage - 1) := by positivity
  exact Nat.mod_eq_of_lt (by omega)

theorem toNat_nearIndex {step g t : Nat} (hg : g < step) (ht : t < 512 / step) :
    (nearIndex step g t).toNat = g + 2 * step * t := by
  have hfar := near_add_step_le hg ht
  exact Nat.mod_eq_of_lt (by omega)

theorem toNat_passFarIndex {step g t : Nat} (hg : g < step) (ht : t < 512 / step) :
    (passFarIndex step g t).toNat = g + 2 * step * t + step := by
  have hfar := near_add_step_le hg ht
  exact Nat.mod_eq_of_lt (by omega)

/-- The far index `BFLY.STEP` forms from the near index is the one a stage pass uses. -/
theorem farIndex_nearIndex {step g t : Nat} (hg : g < step) (ht : t < 512 / step) :
    farIndex (nearIndex step g t) (BitVec.ofNat 11 step) = some (passFarIndex step g t) := by
  have hfar := near_add_step_le hg ht
  have hstep : (BitVec.ofNat 11 step).toNat = step := Nat.mod_eq_of_lt (by omega)
  unfold farIndex
  rw [toNat_nearIndex hg ht, hstep]
  exact if_pos (Nat.lt_succ_of_le hfar)

end Sys2Proof.Machine

open Sys2Proof.Machine

/-- Settles O36: the value of each index the stage forms, with the bounds of its counters. -/
theorem engineIndicesStayInRange : Obligations.EngineIndicesStayInRange := by
  intro stage g t h1 h10 hg ht
  have hjp := toNat_passIndex h1 h10 hg
  have hroom := twiddle_add_stride_le h1 h10 hg
  exact ⟨⟨_, twiddleIndex_eq_some h1 h10 hg, hjp, hjp ▸ Nat.le_sub_of_add_le hroom⟩, near_add_step_le hg ht,
    toNat_nearIndex hg ht, _, farIndex_nearIndex hg ht, toNat_passFarIndex hg ht⟩
end

section
/-! PROOFS. A canonical memory lists exactly the words that differ from the power-up contents, so its reads determine it
(R68; log 6). -/

namespace Sys2Proof.Machine.Memory

/-- What a canonical memory lists, said by its reads. -/
theorem mem_iff_read {c : Channel} {m : Memory} (h : Memory.wf c m) (e : Nat × Word) :
    e ∈ m ↔ e.1 < 1024 ∧ e.2 ≠ Config.powerUpWord c (BitVec.ofNat 10 e.1) ∧
      read c m (BitVec.ofNat 10 e.1) = e.2 := by
  obtain ⟨hsorted, hlisted⟩ := h
  have hindex (hk : e.1 < 1024) : (BitVec.ofNat 10 e.1).toNat = e.1 := Nat.mod_eq_of_lt hk
  constructor
  · intro he
    obtain ⟨hk, hne⟩ := hlisted e he
    exact ⟨hk, hne, by simp only [read, hindex hk, find_of_mem hsorted he]⟩
  · rintro ⟨hk, hne, hread⟩
    unfold read at hread
    rw [hindex hk] at hread
    cases hfind : find m e.1 with
    | none => exact absurd (by simpa only [hfind] using hread.symm) hne
    | some v =>
      obtain rfl : v = e.2 := by simpa only [hfind] using hread
      exact mem_of_find hfind

/-- Canonical memories that read alike list the same entries, in the one rising order. -/
theorem eq_of_read_eq {c : Channel} {m m' : Memory} (h : Memory.wf c m) (h' : Memory.wf c m')
    (hread : ∀ k, read c m k = read c m' k) : m = m' := by
  exact h.1.eq_of_mem_iff h'.1 fun e => by rw [mem_iff_read h, mem_iff_read h', hread]

end Sys2Proof.Machine.Memory

/-- Settles O43: the reads of a canonical memory determine it. -/
theorem canonicalMemoriesWithEqualReadsAreEqual : Obligations.CanonicalMemoriesWithEqualReadsAreEqual :=
  fun _ _ _ => Sys2Proof.Machine.Memory.eq_of_read_eq
end

section
/-! PROOFS. A host access has a step exactly while `busy` = 0, and then the engine's hold touches no sample (R69). -/

namespace Sys2Proof.Machine

theorem hostOp_of_busy {s : State} (h : s.busy = true) (k : State → Answer) :
    hostOp s k = .refused .hostAccessWhileBusy := if_pos h

/-- A hold changes no sample: it starts a transform or changes nothing. -/
theorem sameSamples_of_hold {p : Phase} {s t : State} (h : hold p s = .next t) : s.sameSamples t := by
  obtain ⟨-, -, rfl⟩ := hold_eq_next.1 h
  intro c k
  split
  · exact readSample_startTransform ..
  · rfl

end Sys2Proof.Machine

open Sys2Proof.Machine

/-- Settles O15: the guard of a host access by the value of `busy`, and the frame of the two holds. -/
theorem hostAccessWhileBusyIsRefused : Obligations.HostAccessWhileBusyIsRefused := by
  refine fun s k v => ⟨fun hb => ?_, fun hb => ?_⟩
  · simp only [exec, execHrdRe, execHrdIm, execHwrRe, execHwrIm, hostOp_of_busy hb, and_self]
  · exact ⟨⟨_, execHrdRe_eq_next.2 ⟨hb, rfl⟩⟩, ⟨_, execHrdIm_eq_next.2 ⟨hb, rfl⟩⟩,
      ⟨_, execHwrRe_eq_next.2 ⟨hb, rfl⟩⟩, ⟨_, execHwrIm_eq_next.2 ⟨hb, rfl⟩⟩,
      fun _ => sameSamples_of_hold, fun _ => sameSamples_of_hold⟩
end

section
/-! PROOFS. The decoder and the encoder are inverse (R95 to R99): an access word and its four fields, the phase codes
and their micro-operations, and from these every word and every instruction. -/

namespace Sys2Proof

/-! ## Format `HACC`: an access word and its fields (R96) -/

/-- Every access word is the concatenation of its fields. -/
theorem haccWord_fields (w : BitVec 28) :
    haccWord (w.extractLsb' 27 1) (w.extractLsb' 26 1) (w.extractLsb' 16 10) (w.extractLsb' 0 16) = w := by
  have hsel := BitVec.extractLsb'_append_extractLsb'_eq_extractLsb' (x := w) (len₁ := 1) (len₂ := 1)
    (show 27 = 26 + 1 from rfl)
  have hidx := BitVec.extractLsb'_append_extractLsb'_eq_extractLsb' (x := w) (len₁ := 10) (len₂ := 2)
    (show 26 = 16 + 10 from rfl)
  have hwdata := BitVec.extractLsb'_append_extractLsb'_eq_extractLsb' (x := w) (len₁ := 16) (len₂ := 12)
    (show 16 = 0 + 16 from rfl)
  calc haccWord (w.extractLsb' 27 1) (w.extractLsb' 26 1) (w.extractLsb' 16 10) (w.extractLsb' 0 16)
    _ = w.extractLsb' 26 2 ++ w.extractLsb' 16 10 ++ w.extractLsb' 0 16 := by rw [haccWord, hsel]
    _ = w.extractLsb' 16 12 ++ w.extractLsb' 0 16 := by rw [hidx]
    _ = w.extractLsb' 0 28 := hwdata
    _ = w := BitVec.extractLsb'_eq_self

/-- No two choices of the fields give the same word. -/
theorem haccWord_inj {we we' sel sel' : BitVec 1} {k k' : Index} {v v' : Word}
    (h : haccWord we sel k v = haccWord we' sel' k' v') : we = we' ∧ sel = sel' ∧ k = k' ∧ v = v' := by
  have hnat := congrArg BitVec.toNat h
  rw [Laws.TableMatch.haccWord_toNat, Laws.TableMatch.haccWord_toNat] at hnat
  refine ⟨?_, ?_, ?_, ?_⟩ <;> apply BitVec.eq_of_toNat_eq <;> omega

section
variable (we sel : BitVec 1) (k : Index) (v : Word)

theorem fields_haccWord :
    (haccWord we sel k v).extractLsb' 27 1 = we ∧ (haccWord we sel k v).extractLsb' 26 1 = sel ∧
      (haccWord we sel k v).extractLsb' 16 10 = k ∧ (haccWord we sel k v).extractLsb' 0 16 = v :=
  haccWord_inj (haccWord_fields _)

@[simp] theorem haccWe_haccWord : haccWe (haccWord we sel k v) = (we == 1#1) := by
  obtain ⟨hwe, -⟩ := fields_haccWord we sel k v
  rw [haccWe, BitVec.getLsbD_eq_extractLsb', hwe]

@[simp] theorem haccSel_haccWord : haccSel (haccWord we sel k v) = (sel == 1#1) := by
  obtain ⟨-, hsel, -⟩ := fields_haccWord we sel k v
  rw [haccSel, BitVec.getLsbD_eq_extractLsb', hsel]

@[simp] theorem haccIdx_haccWord : haccIdx (haccWord we sel k v) = k := by
  obtain ⟨-, -, hidx, -⟩ := fields_haccWord we sel k v
  exact hidx

@[simp] theorem haccWdata_haccWord : haccWdata (haccWord we sel k v) = v := by
  obtain ⟨-, -, -, hwdata⟩ := fields_haccWord we sel k v
  exact hwdata

theorem decodeHacc_hrdRe : decodeHacc (haccWord 0#1 0#1 k v) = .hrdRe k := by simp [decodeHacc]

theorem decodeHacc_hrdIm : decodeHacc (haccWord 0#1 1#1 k v) = .hrdIm k := by simp [decodeHacc]

theorem decodeHacc_hwrRe : decodeHacc (haccWord 1#1 0#1 k v) = .hwrRe k v := by simp [decodeHacc]

theorem decodeHacc_hwrIm : decodeHacc (haccWord 1#1 1#1 k v) = .hwrIm k v := by simp [decodeHacc]

end

/-- An access word is the encoding of what it decodes to, or a read that differs from it in `wdata` only. -/
theorem encode_decodeHacc (w : BitVec 28) :
    encode (decodeHacc w) = .hacc w ∨
      ∃ (sel : BitVec 1) (k : Index) (v : Word),
        OpWord.hacc w = .hacc (haccWord 0#1 sel k v) ∧ encode (decodeHacc w) = .hacc (haccWord 0#1 sel k 0#16) := by
  obtain ⟨we, sel, k, v, rfl⟩ : ∃ we sel k v, w = haccWord we sel k v := ⟨_, _, _, _, (haccWord_fields w).symm⟩
  obtain rfl | rfl := BitVec.eq_zero_or_eq_one we <;> obtain rfl | rfl := BitVec.eq_zero_or_eq_one sel
  · exact .inr ⟨_, k, v, rfl, by rw [decodeHacc_hrdRe]; rfl⟩
  · exact .inr ⟨_, k, v, rfl, by rw [decodeHacc_hrdIm]; rfl⟩
  · exact .inl (by rw [decodeHacc_hwrRe]; rfl)
  · exact .inl (by rw [decodeHacc_hwrIm]; rfl)

/-! ## Format `CMD` (R95) -/

theorem encode_decodeCmd (w : BitVec 1) : encode (decodeCmd w) = .cmd w := by
  obtain rfl | rfl := BitVec.eq_zero_or_eq_one w <;> rfl

/-! ## Format `UOP`: the phase codes (R97, R99) -/

/-- The micro-operation a phase selects (R97). -/
def microInstr : Machine.Phase → Instr
  | .idle => .idleHold
  | .perm => .permStep
  | .scan => .scanStep
  | .bfly => .bflyStep
  | .done => .doneHold

@[simp] theorem decode_code (p : Machine.Phase) : decode (.uop p.code) = .ok (microInstr p) := by
  cases p <;> rfl

theorem encode_microInstr (p : Machine.Phase) : encode (microInstr p) = .uop p.code := by
  cases p <;> rfl

/-- A well-formed `UOP` word is the code of a phase. -/
theorem exists_code_of_wellFormed {w : BitVec 3} (h : (OpWord.uop w).wellFormed = true) :
    ∃ p : Machine.Phase, w = p.code := by
  have hcode : ∀ w : BitVec 3, (OpWord.uop w).wellFormed = true →
      ∃ p ∈ [Machine.Phase.idle, .perm, .scan, .bfly, .done], w = p.code := by decide
  obtain ⟨p, -, hp⟩ := hcode w h
  exact ⟨p, hp⟩

theorem wellFormed_eq_false_iff {p : OpWord} :
    p.wellFormed = false ↔ p = .uop 0b101#3 ∨ p = .uop 0b110#3 ∨ p = .uop 0b111#3 := by
  cases p with
  | cmd w => simp [OpWord.wellFormed]
  | hacc w => simp [OpWord.wellFormed]
  | uop w =>
    revert w
    decide

/-! ## All formats -/

/-- A word decodes exactly when it is well formed. -/
theorem exists_decode_iff {p : OpWord} : (∃ i, decode p = .ok i) ↔ p.wellFormed = true := by
  constructor
  · rintro ⟨i, hi⟩
    by_contra hbad
    obtain rfl | rfl | rfl := wellFormed_eq_false_iff.1 (Bool.eq_false_of_not_eq_true hbad) <;> cases hi
  · intro h
    cases p with
    | cmd w => exact ⟨_, rfl⟩
    | hacc w => exact ⟨_, rfl⟩
    | uop w =>
      obtain ⟨ph, rfl⟩ := exists_code_of_wellFormed h
      exact ⟨_, decode_code ph⟩

theorem decode_encode (i : Instr) : decode (encode i) = .ok i := by
  cases i with
  | hrdRe k => exact congrArg _ (decodeHacc_hrdRe k 0#16)
  | hrdIm k => exact congrArg _ (decodeHacc_hrdIm k 0#16)
  | hwrRe k v => exact congrArg _ (decodeHacc_hwrRe k v)
  | hwrIm k v => exact congrArg _ (decodeHacc_hwrIm k v)
  | _ => rfl

end Sys2Proof

open Sys2Proof

/-- Settles O6: `decode_encode`, and for the converse the encoding of the decoded word, format by format. -/
theorem decodeInvertsEncode : Obligations.DecodeInvertsEncode := by
  refine ⟨fun i _ => decode_encode i, fun p i h => ?_⟩
  cases p with
  | cmd w =>
    obtain rfl := Except.ok.inj h
    exact .inl (encode_decodeCmd w)
  | hacc w =>
    obtain rfl := Except.ok.inj h
    exact encode_decodeHacc w
  | uop w =>
    obtain ⟨ph, rfl⟩ := exists_code_of_wellFormed (exists_decode_iff.1 ⟨i, h⟩)
    obtain rfl := Except.ok.inj ((decode_code ph).symm.trans h)
    exact .inl (encode_microInstr ph)

/-- Settles O5: the fields of a word put together again, and the operation of each `we` and `sel`. -/
theorem accessWordIsItsFields : Obligations.AccessWordIsItsFields :=
  ⟨haccWord_fields, fun k v => ⟨congrArg _ (decodeHacc_hrdRe k v), congrArg _ (decodeHacc_hrdIm k v),
    congrArg _ (decodeHacc_hwrRe k v), congrArg _ (decodeHacc_hwrIm k v)⟩⟩

/-- Settles O4: each word is a literal, so the decoder is run on it. -/
theorem decodesWordsOfTheSpec : Obligations.DecodesWordsOfTheSpec := by
  unfold Obligations.DecodesWordsOfTheSpec
  decide

/-- Settles O7: a word decodes exactly when it is well formed. -/
theorem onlyReservedPhaseCodesAreRefused : Obligations.OnlyReservedPhaseCodesAreRefused := by
  refine fun p => ⟨?_, wellFormed_eq_false_iff⟩
  rw [← not_exists, exists_decode_iff, Bool.not_eq_true]
end

section
/-! PROOFS. Where the engine has no step: a micro-operation outside its phase (R97), and register values or butterfly
indices without a meaning (R99, U5). -/

namespace Sys2Proof.Machine

variable {s : State}

/-! ## The guards that refuse -/

theorem microOp_of_phase_ne {p : Phase} (h : s.phase ≠ p) (k : State → Answer) :
    microOp p s k = .refused .notSelectedByPhase := if_neg h

theorem engineOp_of_undefined (h : s.registersDefined = false) (k : State → Answer) :
    engineOp s k = .refused .undefinedRegisterValue := if_neg (by simp [h])

theorem microOp_of_undefined {p : Phase} (hp : s.phase = p) (h : s.registersDefined = false) (k : State → Answer) :
    microOp p s k = .refused .undefinedRegisterValue := (if_pos hp).trans (engineOp_of_undefined h k)

theorem command_of_undefined (hb : s.busy = false) (h : s.registersDefined = false) (inverse : Bool) :
    command inverse s = .refused .undefinedRegisterValue :=
  (if_neg (by simp [hb])).trans (engineOp_of_undefined h _)

theorem microOp_of_defined {p : Phase} (hp : s.phase = p) (h : s.registersDefined = true) (k : State → Answer) :
    microOp p s k = k s := (if_pos hp).trans (if_pos h)

/-! ## The values without a meaning -/

theorem registersDefined_eq_false_iff :
    s.registersDefined = false ↔
      10 < s.scale.toNat ∨ 10 < s.stage.toNat ∨ ∀ k : Nat, k ≤ 10 → s.step.toNat ≠ 2 ^ k := by
  have hpow : (∃ k : Fin 11, s.step.toNat = 2 ^ k.val) ↔ ∃ k : Nat, k ≤ 10 ∧ s.step.toNat = 2 ^ k :=
    ⟨fun ⟨k, h⟩ => ⟨k, Nat.le_of_lt_succ k.isLt, h⟩, fun ⟨k, hk, h⟩ => ⟨⟨k, Nat.lt_succ_of_le hk⟩, h⟩⟩
  rw [← Bool.not_eq_true, registersDefined_iff, hpow, not_and_or, not_and_or, not_le, not_le]
  simp only [not_exists, not_and, ne_eq]

theorem twiddleIndex_eq_none {g : Index} {stage : BitVec 4} (h : stage = 0#4 ∨ 2 ^ (10 - stage.toNat) ≤ g.toNat) :
    twiddleIndex g stage = none := by
  refine if_neg fun ⟨hstage, _, hg⟩ => ?_
  obtain rfl | h := h
  · simp at hstage
  · exact absurd hg (Nat.not_lt.2 h)

theorem farIndex_eq_none {i : Index} {step : BitVec 11} (h : 1024 ≤ i.toNat + step.toNat) : farIndex i step = none :=
  if_neg (Nat.not_lt.2 h)

/-- A butterfly without a twiddle index or without a far index is refused (log 10). -/
theorem execBflyStep_of_no_index (hp : s.phase = .bfly) (hd : s.registersDefined = true)
    (h : twiddleIndex s.g s.stage = none ∨ farIndex s.i s.step = none) :
    execBflyStep s = .refused .indexNamesNoWord := by
  rw [execBflyStep, microOp_of_defined hp hd, twiddle]
  obtain h | h := h
  · rw [h]; rfl
  · rw [h]; cases twiddleIndex s.g s.stage <;> rfl

end Sys2Proof.Machine

open Sys2Proof.Machine

/-- Settles O22: the guard of every micro-operation, at each of the five. -/
theorem microOperationRunsOnlyInItsPhase : Obligations.MicroOperationRunsOnlyInItsPhase :=
  fun _ => ⟨fun h => microOp_of_phase_ne h _, fun h => microOp_of_phase_ne h _, fun h => microOp_of_phase_ne h _,
    fun h => microOp_of_phase_ne h _, fun h => microOp_of_phase_ne h _⟩

/-- Settles O21: the guard of every engine operation, and the two indices of a butterfly. -/
theorem meaninglessRegistersHaveNoStep : Obligations.MeaninglessRegistersHaveNoStep := by
  refine fun s => ⟨registersDefined_eq_false_iff, fun h => ?_, fun hd hp h => execBflyStep_of_no_index hp hd ?_⟩
  · exact ⟨fun hb => ⟨command_of_undefined hb h _, command_of_undefined hb h _⟩,
      fun hp => microOp_of_undefined hp h _, fun hp => microOp_of_undefined hp h _,
      fun hp => microOp_of_undefined hp h _, fun hp => microOp_of_undefined hp h _,
      fun hp => microOp_of_undefined hp h _⟩
  · exact (or_assoc.2 h).imp twiddleIndex_eq_none farIndex_eq_none
end

section
/-! PROOFS. The bit-reversal table, bit by bit (R101, R140). -/

namespace Sys2Proof.Machine

/-- The entries of `BR` are the values of `BITREV` (R140). -/
theorem brRead_bitReversalRom (k : Index) : brRead bitReversalRom k = bitrev k := by
  simp [brRead, bitReversalRom]

/-- R101, read off the ten one-bit pieces `bitrev` is put together from. -/
theorem getLsbD_bitrev (k : Index) (b : Fin 10) : (bitrev k).getLsbD b.val = k.getLsbD (9 - b.val) := by
  unfold bitrev
  change BitVec.getLsbD (w := 1 + 1 + 1 + 1 + 1 + 1 + 1 + 1 + 1 + 1) _ _ = _
  simp only [BitVec.getLsbD_append, BitVec.getLsbD_ofBool]
  fin_cases b <;> rfl

end Sys2Proof.Machine

open Sys2Proof.Machine

/-- Settles O33: an entry of the table is `BITREV` of its index. -/
theorem bitReversalTableReversesBits : Obligations.BitReversalTableReversesBits :=
  fun k b => by rw [brRead_bitReversalRom, getLsbD_bitrev]
end

section
/-! PROOFS. The near and far indices of a stage partition the 1024 samples (R103): an index is `g + STEP * (2 * t + b)`
for exactly one `g` below `STEP`, one `t` and one bit `b`, which is its bit `10 - stage`. -/

namespace Sys2Proof.Machine

/-- Division by `step`, then by 2: the remainder `g`, the quotient `t`, and the bit `b` between them. -/
theorem add_mul_two_mul_add_eq_iff {step g t b x : Nat} (hg : g < step) (hb : b < 2) :
    g + step * (2 * t + b) = x ↔ g = x % step ∧ t = x / (2 * step) ∧ x / step % 2 = b := by
  have houter : x / step = 2 * t + b ∧ x % step = g ↔ g + step * (2 * t + b) = x ∧ g < step :=
    Nat.div_mod_unique (by omega)
  have hinner : x / (2 * step) = x / step / 2 := by rw [mul_comm, Nat.div_div_eq_div_mul]
  rw [hinner]
  constructor
  · intro h
    obtain ⟨hdiv, hmod⟩ := houter.2 ⟨h, hg⟩
    omega
  · rintro ⟨hmod, hdiv, hbit⟩
    exact (houter.1 ⟨by omega, hmod.symm⟩).1

/-- The bit between the group and the number of a butterfly in an index. -/
theorem getLsbD_eq_div_stepOfStage (x : Index) (stage : Nat) :
    x.getLsbD (10 - stage) = decide (x.toNat / stepOfStage stage % 2 = 1) := Nat.testBit_eq_decide_div_mod_eq

section
variable {stage g t : Nat} (hg : g < stepOfStage stage) (ht : t < 512 / stepOfStage stage)
include hg ht

theorem nearIndex_eq_iff (x : Index) :
    nearIndex (stepOfStage stage) g t = x ↔
      g = x.toNat % stepOfStage stage ∧ t = x.toNat / (2 * stepOfStage stage) ∧ x.getLsbD (10 - stage) = false := by
  have hsum : g + 2 * stepOfStage stage * t = g + stepOfStage stage * (2 * t + 0) := by ring
  rw [← BitVec.toNat_inj, toNat_nearIndex hg ht, hsum, add_mul_two_mul_add_eq_iff hg (by decide),
    getLsbD_eq_div_stepOfStage, decide_eq_false_iff_not, Nat.mod_two_not_eq_one]

theorem passFarIndex_eq_iff (x : Index) :
    passFarIndex (stepOfStage stage) g t = x ↔
      g = x.toNat % stepOfStage stage ∧ t = x.toNat / (2 * stepOfStage stage) ∧ x.getLsbD (10 - stage) = true := by
  have hsum : g + 2 * stepOfStage stage * t + stepOfStage stage = g + stepOfStage stage * (2 * t + 1) := by ring
  rw [← BitVec.toNat_inj, toNat_passFarIndex hg ht, hsum, add_mul_two_mul_add_eq_iff hg (by decide),
    getLsbD_eq_div_stepOfStage, decide_eq_true_iff]

end

/-- Adding `2 ^ s` to a number whose bit `s` is 0 flips that bit and no other. -/
theorem add_two_pow_eq_xor {n s : Nat} (h : n.testBit s = false) : n + 2 ^ s = n ^^^ 2 ^ s := by
  have heven : Even (n / 2 ^ s) := by
    rw [Nat.testBit_eq_decide_div_mod_eq, decide_eq_false_iff_not, Nat.mod_two_not_eq_one] at h
    exact Nat.even_iff.2 h
  have hpos : 0 < 2 ^ s := by positivity
  apply Nat.ext_div_mod (n := 2 ^ s)
  · rw [Nat.add_div_right _ hpos, Nat.xor_div_two_pow, Nat.div_self hpos, Nat.xor_one_of_even heven]
  · rw [Nat.add_mod_right, Nat.xor_mod_two_pow, Nat.mod_self, Nat.xor_zero]

/-- The near and the far index of a butterfly differ in bit `10 - stage` only. -/
theorem passFarIndex_eq_nearIndex_xor {stage g t : Nat} (hg : g < stepOfStage stage)
    (ht : t < 512 / stepOfStage stage) :
    passFarIndex (stepOfStage stage) g t =
      nearIndex (stepOfStage stage) g t ^^^ BitVec.ofNat 10 (stepOfStage stage) := by
  obtain ⟨-, -, hbit⟩ := (nearIndex_eq_iff hg ht _).1 rfl
  have hfar := near_add_step_le hg ht
  have hstep : (BitVec.ofNat 10 (stepOfStage stage)).toNat = stepOfStage stage := Nat.mod_eq_of_lt (by omega)
  apply BitVec.eq_of_toNat_eq
  rw [BitVec.toNat_xor, hstep, toNat_passFarIndex hg ht, ← toNat_nearIndex hg ht]
  exact add_two_pow_eq_xor hbit

end Sys2Proof.Machine

open Sys2Proof.Machine

/-- Settles O37: the group and the number of an index are its remainder and quotient, the bit between them its side. -/
theorem stagePairsPartitionTheSamples : Obligations.StagePairsPartitionTheSamples := by
  intro stage h1 h10 step
  have hpos : 0 < step := Nat.two_pow_pos _
  refine ⟨rfl, fun x => ⟨Nat.mod_lt _ hpos, ?_⟩, fun g t hg ht => ?_⟩
  · have hdvd : 2 * step ∣ 1024 := two_mul_two_pow_sub_dvd stage h1
    have hblocks : 512 / step = 1024 / (2 * step) := (Nat.mul_div_mul_left 512 step Nat.two_pos).symm
    rw [hblocks]
    exact Nat.div_lt_div_of_lt_of_dvd hdvd x.isLt
  · exact ⟨toNat_nearIndex hg ht, toNat_passFarIndex hg ht, farIndex_nearIndex hg ht,
      passFarIndex_eq_nearIndex_xor hg ht, fun x => ⟨nearIndex_eq_iff hg ht x, passFarIndex_eq_iff hg ht x⟩⟩
end

section
/-! PROOFS. A micro-step without `reset` runs the decoded host access and then the decoded engine operation (R97, R106,
R222, R234), and a word of the opcode table presented after reset is the one that runs. -/

namespace Sys2Proof.Machine

variable {s : State}

/-! ## What the outputs, the pins and the guard of the registers depend on -/

theorem busy_congr {t : State} (h : t.phase = s.phase) : t.busy = s.busy := by
  rw [State.busy, h]
  rfl

theorem pins_congr {t : State} (h : t.host = s.host) : t.pins = s.pins := by
  rw [State.pins, h]
  rfl

theorem registersDefined_congr {t : State} (hscale : t.scale = s.scale) (hstage : t.stage = s.stage)
    (hstep : t.step = s.step) : t.registersDefined = s.registersDefined := by
  simp only [State.registersDefined, hscale, hstage, hstep]

/-! ## The engine's word -/

theorem engineWord_of_start (hs : s.pins.start = true) (hb : s.busy = false) :
    s.engineWord = .cmd (BitVec.ofBool s.pins.inverse) := if_pos (by simp [hs, hb])

theorem engineWord_of_no_start (h : s.pins.start = false ∨ s.busy = true) : s.engineWord = .uop s.phase.code :=
  if_neg (by obtain h | h := h <;> simp [h])

theorem exists_decode_engineWord (s : State) : ∃ i, decode s.engineWord = .ok i := by
  unfold State.engineWord
  split
  · exact ⟨_, rfl⟩
  · exact ⟨_, decode_code s.phase⟩

/-- The engine's word depends on `PHASE` and the inputs alone. -/
theorem engineWord_congr {t : State} (hphase : t.phase = s.phase) (hhost : t.host = s.host) :
    t.engineWord = s.engineWord := by
  rw [State.engineWord, pins_congr hhost, busy_congr hphase, hphase]
  rfl

/-- Without an accepted start the engine holds while it is not busy (R223, R227). -/
theorem engineOperation_of_quiet (hb : s.busy = false) (hs : s.pins.start = false) (hd : s.registersDefined = true) :
    engineOperation s = .next s := by
  have hhold (p : Phase) (hp : s.phase = p) : hold p s = .next s := hold_eq_next.2 ⟨hp, hd, by simp [hs]⟩
  rw [engineOperation, engineWord_of_no_start (.inl hs), runWord_code]
  obtain hp | hp := busy_eq_false.1 hb <;> rw [hp]
  · exact hhold .idle hp
  · exact hhold .done hp

/-! ## The step -/

theorem runWord_of_decode {p : OpWord} {i : Instr} (h : decode p = .ok i) (s : State) : runWord p s = exec i s := by
  rw [runWord, h]

theorem andThen_congr {o : Answer} {k k' : State → Answer} (h : ∀ s, o = .next s → k s = k' s) :
    andThen o k = andThen o k' := by
  cases o with
  | next s => exact h s rfl
  | fault r => rfl
  | refused r => rfl

/-- A host access leaves the engine's word as it was, so the step runs the word that stood there before it. -/
theorem step_of_decode {i : Instr} (hr : s.pins.reset = false) (hi : decode s.engineWord = .ok i) :
    step s = andThen (hostAccess (s.setHrdata none)) fun u => andThen (exec i u) fun t => .next t.popInput := by
  refine (if_neg (by simp [hr])).trans (andThen_congr fun u hu => ?_)
  obtain ⟨-, -, -, -, -, hphase, -, -, -, -, -, hhost⟩ := hostAccess_frame hu
  rw [engineOperation, runWord_of_decode ((engineWord_congr hphase hhost).symm ▸ hi)]

theorem hostAccess_of_no_access (h : s.pins.hvalid = false) : hostAccess s = .next s := if_neg (by simp [h])

theorem hostAccess_of_access (h : s.pins.hvalid = true) : hostAccess s = exec (decodeHacc s.pins.hacc) s := if_pos h

/-- A step of the engine alone. -/
theorem step_eq_exec {i : Instr} (hr : s.pins.reset = false) (hv : s.pins.hvalid = false)
    (hi : decode s.engineWord = .ok i) :
    step s = andThen (exec i (s.setHrdata none)) fun t => .next t.popInput := by
  rw [step_of_decode hr hi, hostAccess_of_no_access (s := s.setHrdata none) hv, andThen_next]

theorem step_of_exec {i : Instr} {t : State} (hr : s.pins.reset = false) (hv : s.pins.hvalid = false)
    (hi : decode s.engineWord = .ok i) (he : exec i (s.setHrdata none) = .next t) : step s = .next t.popInput := by
  rw [step_eq_exec hr hv hi, he, andThen_next]

/-- A host access while not busy, with no start beside it: the engine holds. -/
theorem step_of_access {t : State} (hr : s.pins.reset = false) (hs : s.pins.start = false) (hv : s.pins.hvalid = true)
    (hb : s.busy = false) (hd : s.registersDefined = true)
    (ha : exec (decodeHacc s.pins.hacc) (s.setHrdata none) = .next t) : step s = .next t.popInput := by
  have hacc : hostAccess (s.setHrdata none) = .next t := (hostAccess_of_access (s := s.setHrdata none) hv).trans ha
  obtain ⟨-, -, hscale, -, -, hphase, -, hstage, hstep, -, -, hhost⟩ := hostAccess_frame hacc
  have hhold : engineOperation t = .next t := engineOperation_of_quiet ((busy_congr hphase).trans hb)
    ((congrArg HostInput.start (pins_congr hhost)).trans hs) ((registersDefined_congr hscale hstage hstep).trans hd)
  exact step_eq_next.2 (.inr ⟨hr, t, t, hacc, hhold, rfl⟩)

/-! ## A word presented after reset -/

theorem decodeTableWord_eq_some {nbits w : Nat} {i : Instr} :
    decodeTableWord nbits w = some i ↔ ∃ p, tableWord nbits w = some p ∧ decode p = .ok i := by
  unfold decodeTableWord
  cases tableWord nbits w with
  | none => simp
  | some p => cases hp : decode p <;> simp [hp]

theorem withFetchWord_of_tableWord {nbits w : Nat} {p : OpWord} (h : tableWord nbits w = some p) (s : State) :
    s.withFetchWord nbits w = s.present p := by
  rw [State.withFetchWord, h]

theorem exists_exec_decodeHacc (hb : s.busy = false) (w : BitVec 28) : ∃ t, exec (decodeHacc w) s = .next t := by
  unfold decodeHacc
  split
  · exact ⟨_, execHrdRe_eq_next.2 ⟨hb, rfl⟩⟩
  · exact ⟨_, execHrdIm_eq_next.2 ⟨hb, rfl⟩⟩
  · exact ⟨_, execHwrRe_eq_next.2 ⟨hb, rfl⟩⟩
  · exact ⟨_, execHwrIm_eq_next.2 ⟨hb, rfl⟩⟩

theorem registersDefined_reset : State.reset.registersDefined = true := by decide

/-- Every command, access word and phase code runs when it is presented after reset (log 13). -/
theorem exists_step_present_reset {p : OpWord} {i : Instr} (h : decode p = .ok i) :
    ∃ t, exec i ((State.reset.present p).setHrdata none) = .next t ∧
      step (State.reset.present p) = .next t.popInput := by
  cases p with
  | cmd w =>
    obtain rfl := Except.ok.inj h
    obtain rfl | rfl := BitVec.eq_zero_or_eq_one w
    · exact ⟨_, rfl, step_of_exec rfl rfl rfl rfl⟩
    · exact ⟨_, rfl, step_of_exec rfl rfl rfl rfl⟩
  | hacc w =>
    obtain rfl := Except.ok.inj h
    obtain ⟨t, ht⟩ := exists_exec_decodeHacc (s := (State.reset.present (.hacc w)).setHrdata none) rfl w
    have hd : (State.reset.present (.hacc w)).registersDefined = true :=
      (registersDefined_congr rfl rfl rfl).trans registersDefined_reset
    exact ⟨t, ht, step_of_access rfl rfl rfl rfl hd ht⟩
  | uop w =>
    obtain ⟨ph, rfl⟩ := exists_code_of_wellFormed (exists_decode_iff.1 ⟨i, h⟩)
    obtain rfl := Except.ok.inj ((decode_code ph).symm.trans h)
    cases ph <;> exact ⟨_, rfl, step_of_exec rfl rfl rfl rfl⟩

end Sys2Proof.Machine

open Sys2Proof.Machine

/-- Settles O8: the engine's word and its decoding, and the step as the two decoded operations in turn. -/
theorem stepRunsDecodedOperations : Obligations.StepRunsDecodedOperations := by
  refine fun s hr => ⟨engineWord_of_start, engineWord_of_no_start, exists_decode_engineWord s,
    fun hv i hi => step_eq_exec hr hv hi, fun hv a i ha hi => ?_⟩
  obtain rfl := Except.ok.inj ha
  rw [step_of_decode hr hi, hostAccess_of_access (s := s.setHrdata none) hv]
  rfl

/-- Settles O9: the table's word is a word on its port, and that word runs. -/
theorem presentedTableWordRunsAfterReset : Obligations.PresentedTableWordRunsAfterReset := by
  intro nbits w i h
  obtain ⟨p, hp, hi⟩ := decodeTableWord_eq_some.1 h
  rw [withFetchWord_of_tableWord hp]
  exact exists_step_present_reset hi
end

section
/-! PROOFS. A script of host writes, run while not busy, leaves the written value in every word it names (R105, R230);
`CLEAR` is such a script over all 2048 words. -/

namespace Sys2Proof.Machine

/-! ## One write -/

/-- The host write of a channel (R96, R230). -/
def writeInstr : Channel → Index → Word → Instr
  | .re => .hwrRe
  | .im => .hwrIm

theorem exec_writeInstr {s : State} (hb : s.busy = false) (c : Channel) (k : Index) (v : Word) :
    exec (writeInstr c k v) s = .next (s.writeSample c k v) := by
  cases c
  · exact execHwrRe_eq_next.2 ⟨hb, rfl⟩
  · exact execHwrIm_eq_next.2 ⟨hb, rfl⟩

/-- The pins of a script line that writes. -/
theorem line_writeInstr (c : Channel) (k : Index) (v : Word) :
    (line (writeInstr c k v)).reset = false ∧ (line (writeInstr c k v)).start = false ∧
      (line (writeInstr c k v)).hvalid = true ∧ decodeHacc (line (writeInstr c k v)).hacc = writeInstr c k v := by
  cases c
  · exact ⟨rfl, rfl, rfl, decodeHacc_hwrRe k v⟩
  · exact ⟨rfl, rfl, rfl, decodeHacc_hwrIm k v⟩

theorem step_of_write_line {s : State} {c : Channel} {k : Index} {v : Word} {rest : List HostInput}
    (hb : s.busy = false) (hd : s.registersDefined = true) (hhost : s.host = line (writeInstr c k v) :: rest) :
    step s = .next ((s.setHrdata none).writeSample c k v).popInput := by
  have hpins : s.pins = line (writeInstr c k v) := by rw [State.pins, hhost, List.headD_cons]
  obtain ⟨hr, hs, hv, hw⟩ := line_writeInstr c k v
  rw [← hpins] at hr hs hv hw
  exact step_of_access hr hs hv hb hd (hw ▸ exec_writeInstr (s := s.setHrdata none) hb c k v)

/-! ## A script of writes of one value -/

/-- After a write of `v`, the word it names reads `v`, and so does every word that read `v` before. -/
theorem readSample_writeSample_eq {s : State} (hw : s.memWf) {c c₀ : Channel} {k k₀ : Index} {v : Word}
    (h : (c, k) = (c₀, k₀) ∨ s.readSample c k = v) : (s.writeSample c₀ k₀ v).readSample c k = v := by
  by_cases hck : (c, k) = (c₀, k₀)
  · obtain ⟨rfl, rfl⟩ := Prod.mk.inj hck
    exact readSample_writeSample_self hw c k v
  · have hother : c₀ ≠ c ∨ k ≠ k₀ := not_and_or.1 fun ⟨hc, hk⟩ => hck (Prod.ext hc.symm hk)
    rw [readSample_writeSample_other hother]
    exact h.resolve_left hck

/-- The lines that write `v` to each of the words of `cells`. -/
def writeLines (v : Word) (cells : List (Channel × Index)) : List HostInput :=
  cells.map fun e => line (writeInstr e.1 e.2 v)

theorem run_succ_of_step {M : Host.Core} {s t : M.State} (h : M.step s = .next t) (n : Nat) :
    M.run (n + 1) s = M.run n t := by
  rw [Host.Core.run, h]

theorem run_writeLines (v : Word) (rest : List HostInput) (cells : List (Channel × Index)) {s : State}
    (hw : s.memWf) (hb : s.busy = false) (hd : s.registersDefined = true)
    (hhost : s.host = writeLines v cells ++ rest) :
    ∃ t : State, Sys2Proof.core.run cells.length s = .next t ∧
      (∀ c k, (c, k) ∈ cells ∨ s.readSample c k = v → t.readSample c k = v) ∧ s.sameRegisters t ∧ s.sameRoms t ∧
      t.host = rest := by
  induction cells generalizing s with
  | nil =>
    exact ⟨s, rfl, fun c k h => h.resolve_left List.not_mem_nil, by simp [State.sameRegisters], ⟨rfl, rfl⟩, hhost⟩
  | cons e cells ih =>
    have hread {c : Channel} {k : Index} (h : (c, k) = e ∨ s.readSample c k = v) :
        ((s.setHrdata none).writeSample e.1 e.2 v).popInput.readSample c k = v := by
      rw [readSample_popInput]
      exact readSample_writeSample_eq (s := s.setHrdata none) hw (by simpa using h)
    obtain ⟨t, hrun, hsamples, hregs, hroms, hrest⟩ := ih
      (s := ((s.setHrdata none).writeSample e.1 e.2 v).popInput)
      (memWf_writeSample (s := s.setHrdata none) hw e.1 e.2 v) ((busy_congr (by simp)).trans hb)
      ((registersDefined_congr (by simp) (by simp) (by simp)).trans hd) (by simp [hhost, writeLines])
    refine ⟨t, (run_succ_of_step (M := Sys2Proof.core) (step_of_write_line hb hd hhost) _).trans hrun,
      fun c k h => hsamples c k ?_, by simpa [State.sameRegisters] using hregs,
      by simpa [State.sameRoms] using hroms, hrest⟩
    obtain hmem | hv := h
    · obtain rfl | hmem := List.mem_cons.1 hmem
      · exact .inr (hread (.inl rfl))
      · exact .inl hmem
    · exact .inr (hread (.inr hv))

/-! ## The script `CLEAR` -/

/-- Every word of `RE`, then every word of `IM`, in ascending order. -/
def allCells : List (Channel × Index) :=
  (List.range 1024).map (fun k => (.re, BitVec.ofNat 10 k)) ++ (List.range 1024).map fun k => (.im, BitVec.ofNat 10 k)

theorem mem_allCells (c : Channel) (k : Index) : (c, k) ∈ allCells := by
  have hk : ∃ n ∈ List.range 1024, (c, BitVec.ofNat 10 n) = (c, k) := ⟨k.toNat, List.mem_range.2 k.isLt, by simp⟩
  cases c
  · exact List.mem_append_left _ (List.mem_map.2 hk)
  · exact List.mem_append_right _ (List.mem_map.2 hk)

theorem length_allCells : allCells.length = 2048 := by simp [allCells]

theorem clear_eq_writeLines : Sys2Proof.Machine.clear = writeLines 0#16 allCells := by
  simp only [clear, fillRe, fillIm, loadRe, loadIm, writeLines, allCells, List.map_append, List.map_map]
  rfl

end Sys2Proof.Machine

open Sys2Proof.Machine

/-- Settles O54: `CLEAR` writes 0 to every word. -/
theorem clearScriptZeroesEveryWord : Obligations.ClearScriptZeroesEveryWord := by
  intro s rest hw hb hd hhost
  rw [clear_eq_writeLines] at hhost
  obtain ⟨t, hrun, hsamples, hframe⟩ := run_writeLines 0#16 rest allCells hw hb hd hhost
  exact ⟨t, length_allCells ▸ hrun, fun c k => hsamples c k (.inl (mem_allCells c k)), hframe⟩
end

section
/-! PROOFS. The scalar operations as values: addition, subtraction and negation are those of 16-bit words, and a result
that fits is not changed by narrowing (R120 to R125). -/

namespace Sys2Proof.Machine

/-! ## What fits is not narrowed -/

theorem toInt_bounds (x : Word) : -32768 ≤ x.toInt ∧ x.toInt ≤ 32767 :=
  ⟨BitVec.le_toInt x, Int.le_of_lt_add_one (BitVec.toInt_lt (x := x))⟩

theorem toInt_wrap16_of_fits {x : Int} (hmin : -32768 ≤ x) (hmax : x ≤ 32767) : (wrap16 x).toInt = x := by
  rw [toInt_wrap16]
  omega

/-! ## `ADD16`, `SUB16`, `NEG16` (R124, R125) -/

theorem wrap16_add (x y : Int) : wrap16 (x + y) = wrap16 x + wrap16 y := BitVec.ofInt_add ..

theorem wrap16_neg (x : Int) : wrap16 (-x) = -wrap16 x := BitVec.ofInt_neg

theorem wrap16_sub (x y : Int) : wrap16 (x - y) = wrap16 x - wrap16 y := by
  rw [sub_eq_add_neg, wrap16_add, wrap16_neg, BitVec.sub_eq_add_neg]

theorem add16_eq_add (x y : Word) : add16 x y = x + y := by
  rw [add16, wrap16_add, wrap16_toInt, wrap16_toInt]

theorem sub16_eq_sub (x y : Word) : sub16 x y = x - y := by
  rw [sub16, wrap16_sub, wrap16_toInt, wrap16_toInt]

theorem neg16_eq_neg (x : Word) : neg16 x = -x := by
  rw [neg16, wrap16_neg, wrap16_toInt]

theorem toInt_neg16_of_ne {x : Word} (h : x.toInt ≠ -32768) : (neg16 x).toInt = -x.toInt := by
  obtain ⟨hmin, hmax⟩ := toInt_bounds x
  exact toInt_wrap16_of_fits (by omega) (by omega)

theorem toInt_neg16_of_eq {x : Word} (h : x.toInt = -32768) : (neg16 x).toInt = -32768 := by
  rw [neg16, h]
  rfl

/-! ## `HALVE` (R123) -/

/-- Rounding toward zero, as the floor of `n` or, below 0, of `n + 1` (R10). -/
theorem truncDiv_two (n : Int) : truncDiv n 2 = if n < 0 then (n + 1) / 2 else n / 2 := by
  rw [truncDiv, Int.tdiv_eq_ediv, Int.sign_eq_one_of_pos (by decide)]
  omega

theorem floorDiv_of_pos (n : Int) {d : Int} (hd : 0 < d) : floorDiv n d = n / d :=
  Int.fdiv_eq_ediv_of_nonneg n hd.le

theorem toInt_halve_trunc (x : Word) :
    (halve .trunc x).toInt = if x.toInt < 0 then (x.toInt + 1) / 2 else x.toInt / 2 := by
  obtain ⟨hmin, hmax⟩ := toInt_bounds x
  rw [halve, truncDiv_two, toInt_wrap16_of_fits] <;> omega

theorem toInt_halve_floor (x : Word) : (halve .floor x).toInt = x.toInt / 2 := by
  obtain ⟨hmin, hmax⟩ := toInt_bounds x
  rw [halve, floorDiv_of_pos _ (by decide), toInt_wrap16_of_fits] <;> omega

theorem halve_bounds (m : HalveMode) (x : Word) : -16384 ≤ (halve m x).toInt ∧ (halve m x).toInt ≤ 16383 := by
  obtain ⟨hmin, hmax⟩ := toInt_bounds x
  cases m with
  | trunc => rw [toInt_halve_trunc]; omega
  | floor => rw [toInt_halve_floor]; omega

/-- The negation of a half fits. -/
theorem toInt_neg16_halve (m : HalveMode) (x : Word) : (neg16 (halve m x)).toInt = -(halve m x).toInt := by
  obtain ⟨hmin, -⟩ := halve_bounds m x
  exact toInt_neg16_of_ne (by omega)

/-! ## `FIX_MPY` (R120, R121) -/

theorem fixMpy_eq (a b : Word) : fixMpy a b = wrap16 ((a.toInt * b.toInt + 16384) / 32768) :=
  congrArg wrap16 (floorDiv_of_pos _ (by decide))

theorem fixMpy_comm (a b : Word) : fixMpy a b = fixMpy b a := by
  rw [fixMpy, fixMpy, mul_comm]

theorem fixMpy_zero_left (b : Word) : fixMpy 0#16 b = 0#16 := by
  rw [fixMpy_eq, BitVec.toInt_zero, zero_mul]
  rfl

theorem abs_toInt_le (x : Word) : |x.toInt| ≤ 32768 := by
  obtain ⟨hmin, hmax⟩ := toInt_bounds x
  exact abs_le.2 ⟨hmin, by omega⟩

theorem abs_toInt_mul_le {a : Word} {n : Int} (ha : |a.toInt| ≤ n) (b : Word) : |a.toInt * b.toInt| ≤ n * 32768 :=
  calc |a.toInt * b.toInt| = |a.toInt| * |b.toInt| := abs_mul ..
    _ ≤ n * 32768 := mul_le_mul ha (abs_toInt_le b) (abs_nonneg _) ((abs_nonneg _).trans ha)

/-- With a first operand other than -32768 the rounded product fits (R121). -/
theorem toInt_fixMpy_of_ge {a : Word} (ha : -32767 ≤ a.toInt) (b : Word) :
    (fixMpy a b).toInt = (a.toInt * b.toInt + 16384) / 32768 ∧ -32767 ≤ (fixMpy a b).toInt ∧
      (fixMpy a b).toInt ≤ 32767 := by
  obtain ⟨hlow, hhigh⟩ := abs_le.1 (abs_toInt_mul_le (abs_le.2 ⟨ha, (toInt_bounds a).2⟩) b)
  have hexact : (fixMpy a b).toInt = (a.toInt * b.toInt + 16384) / 32768 := by
    rw [fixMpy_eq, toInt_wrap16_of_fits] <;> omega
  omega

/-- The biased product fits 32 signed bits, even where the product is largest. -/
theorem biased_product_bounds (a b : Word) :
    -2147483648 ≤ a.toInt * b.toInt + 16384 ∧ a.toInt * b.toInt + 16384 ≤ 2147483647 := by
  obtain ⟨hlow, hhigh⟩ := abs_le.1 (abs_toInt_mul_le (abs_toInt_le a) b)
  omega

end Sys2Proof.Machine

open Sys2Proof.Machine

/-- Settles O25: exact when one operand is not -32768; when it is the second one, by commutativity. -/
theorem fixMpyRoundsHalfUp : Obligations.FixMpyRoundsHalfUp := by
  intro a b
  refine ⟨fun ⟨ha, hb⟩ => ?_, fun hne => ?_, biased_product_bounds a b, fixMpy_comm a b, fixMpy_zero_left b,
    (fixMpy_comm ..).trans (fixMpy_zero_left a)⟩
  · rw [fixMpy, ha, hb]
    rfl
  · obtain ⟨hamin, -⟩ := toInt_bounds a
    obtain ⟨hbmin, -⟩ := toInt_bounds b
    obtain ha | hb : -32767 ≤ a.toInt ∨ -32767 ≤ b.toInt := by omega
    · exact (toInt_fixMpy_of_ge ha b).1
    · rw [fixMpy_comm, mul_comm]
      exact (toInt_fixMpy_of_ge hb a).1

/-- Settles O27: the value and range of a half in both modes; a half always has a negation that fits. -/
theorem halveRoundsByMode : Obligations.HalveRoundsByMode := by
  refine ⟨rfl, fun x => ?_⟩
  have htrunc := toInt_halve_trunc x
  have hfloor := toInt_halve_floor x
  refine ⟨by omega, by omega, by omega, hfloor, ?_, by omega, fun m => halve_bounds m x, fun hx => ?_, fun hodd h => ?_⟩
  · rw [ne_eq, ← BitVec.toInt_inj]
    omega
  · rw [← BitVec.toInt_inj, toInt_halve_trunc, toInt_neg16_of_ne hx, toInt_neg16_halve]
    omega
  · rw [← BitVec.toInt_inj, toInt_halve_floor, toInt_neg16_of_ne (by omega), toInt_neg16_halve] at h
    omega

/-- Settles O28: the operations are those of 16-bit words, which `wrap16` respects. -/
theorem addSubtractWrapSilently : Obligations.AddSubtractWrapSilently := by
  refine ⟨fun x y => ⟨toInt_wrap16 _, toInt_wrap16 _⟩, fun x y => ⟨?_, ?_, ?_⟩, fun q m1 m2 => ?_⟩
  · rw [add16_eq_add, wrap16_add]
  · rw [sub16_eq_sub, wrap16_sub]
  · rw [neg16_eq_neg, wrap16_neg]
  · simp only [add16_eq_add, sub16_eq_sub, add_sub_assoc, wrap16_add, wrap16_sub, wrap16_toInt]
end

section
/-! PROOFS. The range test on the stored pattern (R127): a word is in range exactly when its top two bits agree. -/

namespace Sys2Proof.Machine

theorem oor_eq_true_iff {v : Word} : oor v = true ↔ v.toInt < -16384 ∨ 16383 < v.toInt := by
  simp [oor]

theorem getLsbD_eq_decide_div (v : Word) (b : Nat) : v.getLsbD b = decide (v.toNat / 2 ^ b % 2 = 1) :=
  Nat.testBit_eq_decide_div_mod_eq

end Sys2Proof.Machine

open Sys2Proof.Machine

/-- Settles O30: the signed value and bits 15 and 14, all three read off the unsigned value. -/
theorem outOfRangeIsTopBitsDiffer : Obligations.OutOfRangeIsTopBitsDiffer := by
  refine fun v => ⟨oor_eq_true_iff, ?_⟩
  have hlt := v.isLt
  have hval := BitVec.toInt_eq_toNat_cond v
  rw [Bool.eq_iff_iff, oor_eq_true_iff, getLsbD_eq_decide_div, getLsbD_eq_decide_div, Bool.xor_iff_ne, ne_eq,
    decide_eq_decide]
  omega
end

section
/-! PROOFS. The words of the decided ROM (R164, R166) and the weights `TWIDDLE` forms from a ROM without -32768: none is
-32768 (R121, R124). -/

namespace Sys2Proof.Machine

/-! ## The decided ROM -/

theorem getElem_twiddleRom (k : Nat) (hk : k < 769) :
    twiddleRom[k] = wrap16 (twiddleValues[k]'(twiddleValues_length ▸ hk)) := by
  simp [twiddleRom, wrap16]

theorem twiddleValues_bounds : ∀ v ∈ twiddleValues, -32767 ≤ v ∧ v ≤ 32767 := by decide +kernel

/-- The half circle of sines the engine looks up. -/
theorem twiddleValues_nonneg : ∀ v ∈ twiddleValues.take 512, 0 ≤ v := by decide +kernel

theorem toInt_twiddleRom (k : Nat) (hk : k < 769) :
    (twiddleRom[k]).toInt = twiddleValues[k]'(twiddleValues_length ▸ hk) := by
  obtain ⟨hmin, hmax⟩ := twiddleValues_bounds _ (List.getElem_mem (twiddleValues_length ▸ hk))
  rw [getElem_twiddleRom k hk, toInt_wrap16_of_fits (by omega) hmax]

theorem twiddleRom_bounds (k : Nat) (hk : k < 769) : -32767 ≤ (twiddleRom[k]).toInt ∧ (twiddleRom[k]).toInt ≤ 32767 := by
  rw [toInt_twiddleRom k hk]
  exact twiddleValues_bounds _ (List.getElem_mem _)

theorem twSin_twiddleRom_nonneg (k : BitVec 9) : 0 ≤ (twSin twiddleRom k).toInt := by
  have hk : k.toNat < 512 := k.isLt
  rw [twSin, toInt_twiddleRom k.toNat (by omega)]
  exact twiddleValues_nonneg _ (List.mem_take_iff_getElem.2 ⟨k.toNat, by simpa [twiddleValues_length] using hk, rfl⟩)

/-! ## The weights -/

/-- Both weights, each halved as the near operand is. -/
theorem twiddleWeights_eq (m : HalveMode) (tw : Vector Word 769) (jp : BitVec 9) (inv shift : Bool) :
    twiddleWeights m tw jp inv shift =
      (passThrough m shift (twCos tw jp), passThrough m shift (if inv then twSin tw jp else neg16 (twSin tw jp))) := by
  cases shift <;> rfl

theorem neg16_ge {x : Word} (h : x.toInt ≠ -32768) : -32767 ≤ (neg16 x).toInt := by
  obtain ⟨-, hmax⟩ := toInt_bounds x
  rw [toInt_neg16_of_ne h]
  omega

theorem passThrough_ge {x : Word} (h : -32767 ≤ x.toInt) (m : HalveMode) (shift : Bool) :
    -32767 ≤ (passThrough m shift x).toInt := by
  cases shift with
  | false => exact h
  | true => exact le_trans (by decide) (halve_bounds m x).1

theorem twiddleWeights_ge {tw : Vector Word 769} (htw : ∀ k : Fin 769, (tw[k.val]'k.isLt).toInt ≠ -32768)
    (m : HalveMode) (jp : BitVec 9) (inv shift : Bool) :
    -32767 ≤ (twiddleWeights m tw jp inv shift).1.toInt ∧ -32767 ≤ (twiddleWeights m tw jp inv shift).2.toInt := by
  have hjp : jp.toNat < 512 := jp.isLt
  have hge {x : Word} (h : x.toInt ≠ -32768) : -32767 ≤ x.toInt := by
    obtain ⟨hmin, -⟩ := toInt_bounds x
    omega
  have hcos : (twCos tw jp).toInt ≠ -32768 := htw ⟨jp.toNat + 256, by omega⟩
  have hsin : (twSin tw jp).toInt ≠ -32768 := htw ⟨jp.toNat, by omega⟩
  rw [twiddleWeights_eq]
  refine ⟨passThrough_ge (hge hcos) m shift, passThrough_ge ?_ m shift⟩
  cases inv with
  | false => exact neg16_ge hsin
  | true => exact hge hsin

end Sys2Proof.Machine

open Sys2Proof.Machine

/-- Settles O26: the words of the ROM, the weights formed from them, and a product with one of them. -/
theorem engineProductsAreNotNarrowed : Obligations.EngineProductsAreNotNarrowed := by
  refine ⟨fun k => ?_, fun m tw jp inv shift htw => ?_, fun a b ha => toInt_fixMpy_of_ge ha b⟩
  · obtain ⟨hmin, -⟩ := twiddleRom_bounds k.val k.isLt
    omega
  · obtain ⟨hwr, hwi⟩ := twiddleWeights_ge htw m jp inv shift
    exact ⟨hwr, (toInt_bounds _).2, hwi, (toInt_bounds _).2⟩

/-- Settles O29: `NEG16` in its two cases; the sines the engine negates are not below 0. -/
theorem negationOverflowsOnlyAtTheMinimum : Obligations.NegationOverflowsOnlyAtTheMinimum := by
  refine ⟨fun x => ⟨toInt_neg16_of_ne, toInt_neg16_of_eq⟩, fun k => ?_⟩
  have hmin := twSin_twiddleRom_nonneg k
  obtain ⟨-, hmax⟩ := toInt_bounds (twSin twiddleRom k)
  have hneg := toInt_neg16_of_ne (x := twSin twiddleRom k) (by omega)
  omega
end

section
/-! PROOFS. `BFLY.STEP` on a pair it can name: the weights of its group, one butterfly on the near and the far index, and
no other word (R181, R182, R226). -/

namespace Sys2Proof.Machine

theorem eq_passIndex {stage g : Nat} {jp : BitVec 9} (h1 : 1 ≤ stage) (h10 : stage ≤ 10) (hg : g < stepOfStage stage)
    (hjp : jp.toNat = g * 2 ^ (stage - 1)) : passIndex stage g = jp :=
  BitVec.eq_of_toNat_eq ((toNat_passIndex h1 h10 hg).trans hjp.symm)

theorem farIndex_eq_some {i j : Index} {step : BitVec 11} (h : j.toNat = i.toNat + step.toNat) :
    farIndex i step = some j := by
  rw [farIndex, ← h, if_pos j.isLt, BitVec.ofNat_toNat, BitVec.setWidth_eq]

/-- A distance with a meaning is not 0, so the two indices of a butterfly differ. -/
theorem ne_of_far {s : State} {j : Index} (hd : s.registersDefined = true) (hj : j.toNat = s.i.toNat + s.step.toNat) :
    s.i ≠ j := by
  obtain ⟨-, -, k, hk⟩ := registersDefined_iff.1 hd
  have hpos : 0 < s.step.toNat := hk ▸ Nat.two_pow_pos k.val
  rintro rfl
  omega

/-- `BFLY.STEP` with the indices of its pair given as numbers. -/
theorem exec_bflyStep_of_indices {s : State} {jp : BitVec 9} {j : Index} (hp : s.phase = .bfly)
    (hd : s.registersDefined = true) (h1 : 1 ≤ s.stage.toNat) (hg : s.g.toNat < 2 ^ (10 - s.stage.toNat))
    (hjp : jp.toNat = s.g.toNat * 2 ^ (s.stage.toNat - 1)) (hj : j.toNat = s.i.toNat + s.step.toNat) :
    exec .bflyStep s = .next (bflyAdvance (bfly s.halveMode s.i j
      (twiddleWeights s.halveMode s.tw jp s.inv s.shift).1
      (twiddleWeights s.halveMode s.tw jp s.inv s.shift).2 s.shift s)) := by
  obtain ⟨-, h10, -⟩ := registersDefined_iff.1 hd
  have htwiddle : twiddleIndex s.g s.stage = some jp :=
    (twiddleIndex_eq_some h1 h10 hg).trans (congrArg some (eq_passIndex h1 h10 hg hjp))
  exact execBflyStep_eq_next.2 ⟨hp, hd, jp, j, htwiddle, farIndex_eq_some hj, rfl⟩

section
variable {s : State} (hw : s.memWf) {i j : Index} (hij : i ≠ j) (m : HalveMode) (wr wi : Word) (shift : Bool)
include hw hij

/-- The near word becomes near plus product (R182). -/
theorem readSample_bfly_near :
    (bfly m i j wr wi shift s).readSample .re i =
        add16 (passThrough m shift (s.readSample .re i))
          (complexProduct wr wi (s.readSample .re j) (s.readSample .im j)).1 ∧
      (bfly m i j wr wi shift s).readSample .im i =
        add16 (passThrough m shift (s.readSample .im i))
          (complexProduct wr wi (s.readSample .re j) (s.readSample .im j)).2 := by
  constructor <;> rw [readSample_bfly hw hij] <;> exact if_pos rfl

/-- The far word becomes near minus product (R182). -/
theorem readSample_bfly_far :
    (bfly m i j wr wi shift s).readSample .re j =
        sub16 (passThrough m shift (s.readSample .re i))
          (complexProduct wr wi (s.readSample .re j) (s.readSample .im j)).1 ∧
      (bfly m i j wr wi shift s).readSample .im j =
        sub16 (passThrough m shift (s.readSample .im i))
          (complexProduct wr wi (s.readSample .re j) (s.readSample .im j)).2 := by
  constructor <;> rw [readSample_bfly hw hij] <;> exact (if_neg hij.symm).trans (if_pos rfl)

theorem readSample_bfly_other (c : Channel) {k : Index} (hi : k ≠ i) (hj : k ≠ j) :
    (bfly m i j wr wi shift s).readSample c k = s.readSample c k := by
  rw [readSample_bfly hw hij]
  exact (if_neg hi).trans (if_neg hj)

end
end Sys2Proof.Machine

open Sys2Proof.Machine

/-- Settles O19: the step runs one butterfly and then the advance, which touches no sample. -/
theorem bflyStepComputesOneButterfly : Obligations.BflyStepComputesOneButterfly := by
  intro s jp j hw hp hd h1 hg hjp hj
  have hij := ne_of_far hd hj
  refine ⟨_, exec_bflyStep_of_indices hp hd h1 hg hjp hj, ?_, fun c k hi hk => ?_, by simp, by simp,
    by simp [State.sameRoms], by simp [State.samePorts]⟩
  · simp only [readSample_bflyAdvance, twiddleWeights_eq]
    exact and_assoc.1 ⟨readSample_bfly_near hw hij _ _ _ _, readSample_bfly_far hw hij _ _ _ _⟩
  · rw [readSample_bflyAdvance, readSample_bfly_other hw hij _ _ _ _ c hi hk]
end

section
/-! PROOFS. The bit-reversal table undoes itself; how many of its entries are fixed and ascending, and its two checksums
(R141). -/

namespace Sys2Proof.Machine

@[simp] theorem bitrev_bitrev (k : Index) : bitrev (bitrev k) = k := by
  refine BitVec.eq_of_getLsbD_eq fun b hb => ?_
  have hmirror : 9 - (9 - b) = b := by omega
  rw [getLsbD_bitrev (bitrev k) ⟨b, hb⟩, getLsbD_bitrev k ⟨9 - b, by omega⟩, hmirror]

theorem bitrev_injective : Function.Injective bitrev := Function.LeftInverse.injective bitrev_bitrev

/-- How many indices are their own reversal, and how many lie below it. -/
theorem bitrev_counts :
    ((List.range 1024).filter fun k => (bitrev (BitVec.ofNat 10 k)).toNat = k).length = 32 ∧
      ((List.range 1024).filter fun k => k < (bitrev (BitVec.ofNat 10 k)).toNat).length = 496 := by
  decide +kernel

theorem bitrev_sums :
    ((List.range 1024).map fun k => (bitrev (BitVec.ofNat 10 k)).toNat).sum = 523776 ∧
      ((List.range 1024).map fun k => (k + 1) * (bitrev (BitVec.ofNat 10 k)).toNat).sum = 269745920 := by
  decide +kernel

end Sys2Proof.Machine

open Sys2Proof.Machine

/-- Settles O34: an entry of the table is `BITREV` of its index, which reverses the bits back when applied twice; the
counts and sums are evaluated. -/
theorem bitReversalTableIsAnInvolution : Obligations.BitReversalTableIsAnInvolution := by
  obtain ⟨hfixed, hascending⟩ := bitrev_counts
  obtain ⟨hsum, hweighted⟩ := bitrev_sums
  simp only [Obligations.BitReversalTableIsAnInvolution, brRead_bitReversalRom]
  exact ⟨bitrev_bitrev, fun _ _ h => bitrev_injective h, hfixed, hascending, hsum, hweighted⟩
end

section
/-! PROOFS. `PERM.STEP` in its cases: the swap of a pair or nothing (R143), and the two forms of the advance (R224). -/

namespace Sys2Proof.Machine

variable {s : State} {k : Index}

/-! ## One swap -/

theorem permSwap_of_not_lt (h : ¬ k < brRead s.br k) : permSwap k s = s := if_neg h

section
variable (hw : s.memWf) (hlt : k < brRead s.br k) (c : Channel)
include hw hlt

theorem readSample_permSwap_low : (permSwap k s).readSample c k = s.readSample c (brRead s.br k) := by
  rw [readSample_permSwap hw, if_pos hlt, if_pos rfl]

theorem readSample_permSwap_high : (permSwap k s).readSample c (brRead s.br k) = s.readSample c k := by
  rw [readSample_permSwap hw, if_pos hlt, if_neg (BitVec.ne_of_lt hlt).symm, if_pos rfl]

theorem readSample_permSwap_other {l : Index} (hlow : l ≠ k) (hhigh : l ≠ brRead s.br k) :
    (permSwap k s).readSample c l = s.readSample c l := by
  rw [readSample_permSwap hw, if_pos hlt, if_neg hlow, if_neg hhigh]

end

/-! ## The advance -/

theorem permAdvance_of_lt (h : s.idx.toNat < 1023) : permAdvance s = { s with idx := s.idx + 1#10 } := if_pos h

theorem permAdvance_of_last (h : s.idx.toNat = 1023) :
    permAdvance s = { s with idx := 0#10, shift := false, stage := 10#4, step := 1#11, phase := .scan } :=
  if_neg (by omega)

theorem toNat_index_succ (h : k.toNat < 1023) : (k + 1#10).toNat = k.toNat + 1 :=
  BitVec.toNat_add_of_lt (Nat.add_lt_of_lt_sub h)

end Sys2Proof.Machine

open Sys2Proof.Machine

/-- Settles O17: the step is the swap at `IDX` and then the advance; the swap touches no register, the advance no
sample. -/
theorem permStepSwapsOnePair : Obligations.PermStepSwapsOnePair := by
  intro s hw hp hd
  refine ⟨_, execPermStep_eq_next.2 ⟨hp, hd, rfl⟩, fun c => ⟨fun hlt => ?_, fun hge l => ?_⟩, fun hidx => ?_,
    fun hidx => ?_, by simp, by simp, by simp, by simp, by simp [State.sameRoms], by simp [State.samePorts]⟩
  · simp only [readSample_permAdvance]
    exact ⟨readSample_permSwap_low hw hlt c, readSample_permSwap_high hw hlt c,
      fun l => readSample_permSwap_other hw hlt c⟩
  · rw [readSample_permAdvance, permSwap_of_not_lt hge]
  · rw [permAdvance_of_lt (by simpa using hidx)]
    simp [hp, toNat_index_succ hidx]
  · rw [permAdvance_of_last (by simpa using hidx)]
    simp
end

section
/-! PROOFS. `PERMUTE` moves every sample to the reversed index (R144), so applied twice it gives back the state (R145).
The induction follows the loop: after the swaps at the indices below `n`, a sample has moved exactly when it or its
partner stands below `n`. -/

namespace Sys2Proof.Machine

/-! ## Two states that agree outside the sample memories -/

/-- `t` is `s` but for the words of `RE` and `IM`. -/
def State.AgreesOutsideSamples (s t : State) : Prop := ∃ re im : Memory, t = { s with re := re, im := im }

namespace State.AgreesOutsideSamples

variable {s t u : State}

theorem refl (s : State) : s.AgreesOutsideSamples s := ⟨s.re, s.im, rfl⟩

theorem trans (h : s.AgreesOutsideSamples t) (h' : t.AgreesOutsideSamples u) : s.AgreesOutsideSamples u := by
  obtain ⟨re, im, rfl⟩ := h
  obtain ⟨re', im', rfl⟩ := h'
  exact ⟨re', im', rfl⟩

theorem of_writeSample (c : Channel) (k : Index) (v : Word) (s : State) :
    s.AgreesOutsideSamples (s.writeSample c k v) := by
  cases c with
  | re => exact ⟨_, _, rfl⟩
  | im => exact ⟨_, _, rfl⟩

theorem of_permSwap (k : Index) (s : State) : s.AgreesOutsideSamples (permSwap k s) := by
  unfold permSwap
  dsimp only
  split
  · exact (((of_writeSample ..).trans (of_writeSample ..)).trans (of_writeSample ..)).trans (of_writeSample ..)
  · exact refl s

theorem br_eq (h : s.AgreesOutsideSamples t) : t.br = s.br := by
  obtain ⟨re, im, rfl⟩ := h
  rfl

/-- With canonical memories that read alike the two states are equal (log 6). -/
theorem eq_of_sameSamples (h : s.AgreesOutsideSamples t) (hs : s.memWf) (ht : t.memWf) (hread : s.sameSamples t) :
    t = s := by
  obtain ⟨re, im, rfl⟩ := h
  obtain rfl : re = s.re := Memory.eq_of_read_eq ht.1 hs.1 (hread .re)
  obtain rfl : im = s.im := Memory.eq_of_read_eq ht.2 hs.2 (hread .im)
  rfl

end State.AgreesOutsideSamples

/-! ## The loop of `PERMUTE` -/

/-- `PERM.SWAP` at the indices below `n`, ascending: `PERMUTE` after `n` of its turns (R144). -/
def swapsBelow (n : Nat) (s : State) : State :=
  (List.range n).foldl (fun s k => permSwap (BitVec.ofNat 10 k) s) s

theorem permute_eq_swapsBelow (s : State) : permute s = swapsBelow 1024 s := rfl

theorem swapsBelow_succ (k : Index) (s : State) :
    swapsBelow (k.toNat + 1) s = permSwap k (swapsBelow k.toNat s) := by
  rw [swapsBelow, List.range_succ, List.foldl_concat, ← swapsBelow, BitVec.ofNat_toNat, BitVec.setWidth_eq]

theorem memWf_swapsBelow {s : State} (h : s.memWf) (n : Nat) : (swapsBelow n s).memWf :=
  List.foldlRecOn _ _ h fun _ hw _ _ => memWf_permSwap hw _

theorem agreesOutsideSamples_swapsBelow (n : Nat) (s : State) : s.AgreesOutsideSamples (swapsBelow n s) :=
  List.foldlRecOn _ _ (.refl s) fun _ h _ _ => h.trans (.of_permSwap _ _)

/-! ## Where a sample comes from -/

/-- The index whose sample stands at `l` after the swaps below `n`, with the decided `BR`. -/
def sourceIndex (n : Nat) (l : Index) : Index :=
  if l.toNat < n ∨ (bitrev l).toNat < n then bitrev l else l

theorem sourceIndex_zero (l : Index) : sourceIndex 0 l = l := if_neg (by simp)

theorem sourceIndex_all (l : Index) : sourceIndex 1024 l = bitrev l := if_pos (.inl l.isLt)

theorem sourceIndex_of_moved {n : Nat} {l : Index} (h : l.toNat < n ∨ (bitrev l).toNat < n) :
    sourceIndex n l = bitrev l := if_pos h

theorem sourceIndex_of_unmoved {n : Nat} {l : Index} (h : n ≤ l.toNat) (hpartner : n ≤ (bitrev l).toNat) :
    sourceIndex n l = l := if_neg (by omega)

/-- A pair whose lower index is below `k`, or which is `k` alone, has its final samples before the swap at `k`. -/
theorem sourceIndex_of_partner_le {k : Index} (hle : (bitrev k).toNat ≤ k.toNat) {l : Index}
    (hl : l = k ∨ l = bitrev k) : sourceIndex k.toNat l = bitrev l := by
  obtain hlt | heq := hle.lt_or_eq
  · refine sourceIndex_of_moved ?_
    obtain rfl | rfl := hl
    · exact .inr hlt
    · exact .inl hlt
  · have hfixed : bitrev k = k := BitVec.eq_of_toNat_eq heq
    obtain rfl : l = k := hl.elim id fun h => h.trans hfixed
    rw [sourceIndex_of_unmoved le_rfl heq.ge, hfixed]

/-- The swap at `k` concerns `k` and its partner alone. -/
theorem sourceIndex_succ_other {k l : Index} (hk : l ≠ k) (hpartner : l ≠ bitrev k) :
    sourceIndex (k.toNat + 1) l = sourceIndex k.toNat l := by
  have hlow : l.toNat ≠ k.toNat := fun h => hk (BitVec.eq_of_toNat_eq h)
  have hhigh : (bitrev l).toNat ≠ k.toNat := fun h => hpartner (by rw [← BitVec.eq_of_toNat_eq h, bitrev_bitrev])
  rw [sourceIndex, sourceIndex]
  congr 1
  rw [eq_iff_iff]
  omega

theorem sourceIndex_succ_pair {k l : Index} (hl : l = k ∨ l = bitrev k) : sourceIndex (k.toNat + 1) l = bitrev l := by
  refine sourceIndex_of_moved ?_
  obtain rfl | rfl := hl
  · exact .inl (Nat.lt_succ_self _)
  · rw [bitrev_bitrev]
    exact .inr (Nat.lt_succ_self _)

/-- One more swap: `k` and its partner change places when the partner stands above `k`. -/
theorem sourceIndex_succ (k l : Index) :
    sourceIndex (k.toNat + 1) l =
      if k < bitrev k then
        if l = k then sourceIndex k.toNat (bitrev k)
        else if l = bitrev k then sourceIndex k.toNat k
        else sourceIndex k.toNat l
      else sourceIndex k.toNat l := by
  split_ifs with hlt hk hpartner
  · have hle : k.toNat ≤ (bitrev k).toNat := Nat.le_of_lt hlt
    rw [sourceIndex_succ_pair (.inl hk), sourceIndex_of_unmoved hle (by rw [bitrev_bitrev]), hk]
  · have hle : k.toNat ≤ (bitrev k).toNat := Nat.le_of_lt hlt
    rw [sourceIndex_succ_pair (.inr hpartner), sourceIndex_of_unmoved le_rfl hle, hpartner, bitrev_bitrev]
  · exact sourceIndex_succ_other hk hpartner
  · by_cases hl : l = k ∨ l = bitrev k
    · rw [sourceIndex_succ_pair hl, sourceIndex_of_partner_le (Nat.le_of_not_lt hlt) hl]
    · obtain ⟨hk, hpartner⟩ := not_or.1 hl
      exact sourceIndex_succ_other hk hpartner

theorem readSample_swapsBelow {s : State} (hw : s.memWf) (hbr : s.br = bitReversalRom) (c : Channel) {n : Nat}
    (hn : n ≤ 1024) (l : Index) : (swapsBelow n s).readSample c l = s.readSample c (sourceIndex n l) := by
  induction n generalizing l with
  | zero => rw [sourceIndex_zero]; rfl
  | succ n ih =>
    obtain ⟨k, rfl⟩ : ∃ k : Index, k.toNat = n := ⟨BitVec.ofNat 10 n, Nat.mod_eq_of_lt hn⟩
    have hbr' : (swapsBelow k.toNat s).br = bitReversalRom := (agreesOutsideSamples_swapsBelow _ s).br_eq.trans hbr
    rw [swapsBelow_succ, readSample_permSwap (memWf_swapsBelow hw _), hbr', brRead_bitReversalRom, sourceIndex_succ]
    simp only [ih (Nat.le_of_succ_le hn), apply_ite (s.readSample c)]

theorem memWf_permute {s : State} (h : s.memWf) : (permute s).memWf := memWf_swapsBelow h 1024

theorem agreesOutsideSamples_permute (s : State) : s.AgreesOutsideSamples (permute s) :=
  agreesOutsideSamples_swapsBelow 1024 s

theorem readSample_permute {s : State} (hw : s.memWf) (hbr : s.br = bitReversalRom) (c : Channel) (k : Index) :
    (permute s).readSample c k = s.readSample c (bitrev k) := by
  rw [permute_eq_swapsBelow, readSample_swapsBelow hw hbr c le_rfl, sourceIndex_all]

end Sys2Proof.Machine

open Sys2Proof.Machine

/-- Settles O44: after the whole loop every sample has moved. -/
theorem permuteReversesIndices : Obligations.PermuteReversesIndices :=
  fun _ c k hw hbr => readSample_permute hw hbr c k

/-- Settles O45: the reversed index of the reversed index is the index itself, and the reads determine the state. -/
theorem permuteIsItsOwnInverse : Obligations.PermuteIsItsOwnInverse := by
  intro s hw hbr
  have hagree := agreesOutsideSamples_permute s
  have hw' := memWf_permute hw
  refine (hagree.trans (agreesOutsideSamples_permute _)).eq_of_sameSamples hw (memWf_permute hw') fun c k => ?_
  rw [readSample_permute hw' (hagree.br_eq.trans hbr), readSample_permute hw hbr, bitrev_bitrev]
end

section
/-! PROOFS. The named properties of the decided ROM (R164): the half circle mirrors itself and the rest is its negation,
so the signs, the cosine symmetry and the determination by the first quarter follow from these two symmetries. -/

namespace Sys2Proof.Machine

/-- The number `TW[k]` stands for, 0 past the end of the table. -/
def twiddleValue (k : Nat) : Int := twiddleValues.getD k 0

theorem toInt_twiddleRom_getD (k : Nat) : (twiddleRom.toList.getD k 0#16).toInt = twiddleValue k := by
  by_cases hk : k < 769
  · have hlist : k < twiddleValues.length := twiddleValues_length ▸ hk
    rw [twiddleValue, List.getD_eq_getElem _ _ hlist, List.getD_eq_getElem _ _ (by simpa using hk), Vector.getElem_toList,
      toInt_twiddleRom k hk]
  · have hlist : twiddleValues.length ≤ k := by rw [twiddleValues_length]; omega
    rw [twiddleValue, List.getD_eq_default _ _ hlist, List.getD_eq_default _ _ (by simpa using hk)]
    rfl

theorem twiddleValue_mem {k : Nat} (hk : k < 769) : twiddleValue k ∈ twiddleValues := by
  rw [twiddleValue, List.getD_eq_getElem _ _ (twiddleValues_length ▸ hk)]
  exact List.getElem_mem _

/-! ## What is evaluated on the listing of R166 -/

theorem twiddleValue_anchors :
    twiddleValue 0 = 0 ∧ twiddleValue 256 = 32767 ∧ twiddleValue 512 = 0 ∧ twiddleValue 768 = -32767 ∧
      twiddleValue 128 = 23170 ∧ twiddleValue 384 = 23170 ∧ twiddleValue 640 = -23170 ∧ twiddleValue 64 = 12539 ∧
      twiddleValue 192 = 30273 := by
  decide +kernel

theorem twiddleValue_mirror : ∀ k < 513, twiddleValue (512 - k) = twiddleValue k := by decide +kernel

theorem twiddleValue_antisymm : ∀ k < 257, twiddleValue (512 + k) = -twiddleValue k := by decide +kernel

theorem twiddleValue_lt_succ : ∀ k < 256, twiddleValue k < twiddleValue (k + 1) := by decide +kernel

theorem twiddleValue_sums :
    ((List.range 769).map twiddleValue).sum = 5323783 ∧ ((List.range 257).map twiddleValue).sum = 5356550 ∧
      ((List.range 769).map fun k : Nat => ((k : Int) + 1) * twiddleValue k).sum = -877576216 := by
  decide +kernel

/-! ## What follows from the symmetries -/

/-- The quarter rises from 0. -/
theorem twiddleValue_nonneg_quarter : ∀ k ≤ 256, 0 ≤ twiddleValue k
  | 0, _ => twiddleValue_anchors.1.ge
  | k + 1, hk => (twiddleValue_nonneg_quarter k (by omega)).trans (twiddleValue_lt_succ k hk).le

theorem twiddleValue_nonneg {k : Nat} (hk : k ≤ 512) : 0 ≤ twiddleValue k := by
  rcases Nat.le_total k 256 with hquarter | hquarter
  · exact twiddleValue_nonneg_quarter k hquarter
  · rw [← twiddleValue_mirror k (by omega)]
    exact twiddleValue_nonneg_quarter (512 - k) (by omega)

theorem twiddleValue_eq_neg {k : Nat} (hge : 512 ≤ k) (hlt : k < 769) : twiddleValue k = -twiddleValue (k - 512) := by
  rw [← twiddleValue_antisymm (k - 512) (by omega), Nat.add_sub_cancel' hge]

theorem twiddleValue_nonpos {k : Nat} (hge : 512 ≤ k) (hlt : k < 769) : twiddleValue k ≤ 0 := by
  rw [twiddleValue_eq_neg hge hlt]
  exact neg_nonpos.2 (twiddleValue_nonneg (by omega))

theorem twiddleValue_cos_symm {k : Nat} (hk : k < 257) : twiddleValue (256 + k) = twiddleValue (256 - k) := by
  rw [← twiddleValue_mirror (256 + k) (by omega)]
  congr 1
  omega

/-- Every entry from the first 257: (h) of R164. -/
theorem twiddleValue_of_quarter {k : Nat} (hk : k < 769) :
    twiddleValue k = if k ≤ 256 then twiddleValue k else if k ≤ 512 then twiddleValue (512 - k)
      else -twiddleValue (k - 512) := by
  split
  · rfl
  · split
    · exact (twiddleValue_mirror k (by omega)).symm
    · exact twiddleValue_eq_neg (by omega) hk

end Sys2Proof.Machine

open Sys2Proof.Machine

/-- Settles O35: the anchors, the two symmetries, the rising quarter and the checksums are evaluated; the signs, the
cosine symmetry and the determination by the first quarter follow from them. -/
theorem twiddleTableProperties : Obligations.TwiddleTableProperties := by
  simp only [Obligations.TwiddleTableProperties, toInt_twiddleRom_getD]
  exact ⟨fun _ hk => twiddleValues_bounds _ (twiddleValue_mem hk), twiddleValue_anchors,
    fun _ hk => ⟨twiddleValue_nonneg, fun hge => twiddleValue_nonpos hge hk⟩, twiddleValue_mirror, twiddleValue_antisymm,
    fun _ => twiddleValue_cos_symm, twiddleValue_lt_succ, fun _ => twiddleValue_of_quarter, twiddleValue_sums⟩
end

section
/-! PROOFS. Where rounding and narrowing do no harm in a butterfly: a weight of magnitude at most 32767 does not enlarge
its operand, so three components of magnitude at most 10922 add up exactly (R186); the weight 32767 (R182). -/

namespace Sys2Proof.Machine

/-- A product with a weight of magnitude below 1 is no larger than its other factor: `w * n` is `n` short of the
`32768 * n` that would round past it. -/
theorem abs_toInt_fixMpy_le {w x : Word} {n : Int} (hw : |w.toInt| ≤ 32767) (hx : |x.toInt| ≤ n) :
    |(fixMpy w x).toInt| ≤ n := by
  have hn : 0 ≤ n := (abs_nonneg _).trans hx
  have hproduct : |w.toInt * x.toInt| ≤ 32767 * n := (abs_mul ..).trans_le (mul_le_mul hw hx (abs_nonneg _) (by decide))
  obtain ⟨hlow, hhigh⟩ := abs_le.1 hproduct
  rw [(toInt_fixMpy_of_ge (abs_le.1 hw).1 x).1, abs_le]
  omega

theorem toInt_add16_of_fits {x y : Word} (h : |x.toInt + y.toInt| ≤ 32767) :
    (add16 x y).toInt = x.toInt + y.toInt := by
  obtain ⟨hlow, hhigh⟩ := abs_le.1 h
  exact toInt_wrap16_of_fits (by omega) hhigh

theorem toInt_sub16_of_fits {x y : Word} (h : |x.toInt - y.toInt| ≤ 32767) :
    (sub16 x y).toInt = x.toInt - y.toInt := by
  obtain ⟨hlow, hhigh⟩ := abs_le.1 h
  exact toInt_wrap16_of_fits (by omega) hhigh

/-- A near component beside two products, all within the bound of R186, leaves room for both sums. -/
theorem toInt_combine_of_small {q a b : Word} (hq : |q.toInt| ≤ 10922) (ha : |a.toInt| ≤ 10922)
    (hb : |b.toInt| ≤ 10922) :
    (add16 q (sub16 a b)).toInt = q.toInt + (a.toInt - b.toInt) ∧
      (sub16 q (sub16 a b)).toInt = q.toInt - (a.toInt - b.toInt) ∧
      (add16 q (add16 a b)).toInt = q.toInt + (a.toInt + b.toInt) ∧
      (sub16 q (add16 a b)).toInt = q.toInt - (a.toInt + b.toInt) := by
  rw [abs_le] at hq ha hb
  have hdiff : (sub16 a b).toInt = a.toInt - b.toInt := toInt_sub16_of_fits (by rw [abs_le]; omega)
  have hsum : (add16 a b).toInt = a.toInt + b.toInt := toInt_add16_of_fits (by rw [abs_le]; omega)
  rw [← hdiff, ← hsum]
  refine ⟨toInt_add16_of_fits ?_, toInt_sub16_of_fits ?_, toInt_add16_of_fits ?_, toInt_sub16_of_fits ?_⟩ <;>
    rw [abs_le] <;> omega

end Sys2Proof.Machine

open Sys2Proof.Machine

/-- Settles O31: every product stays within 10922, so each output is a sum of three such numbers. -/
theorem smallOperandsNeverWrap : Obligations.SmallOperandsNeverWrap := by
  intro wr wi fr fi qr qi hwr hwi hfr hfi hqr hqi
  obtain ⟨hnear, hfar, -⟩ :=
    toInt_combine_of_small hqr (abs_toInt_fixMpy_le hwr hfr) (abs_toInt_fixMpy_le hwi hfi)
  obtain ⟨-, -, hnear', hfar'⟩ :=
    toInt_combine_of_small hqi (abs_toInt_fixMpy_le hwr hfi) (abs_toInt_fixMpy_le hwi hfr)
  exact ⟨hnear, hfar, hnear', hfar'⟩

/-- Settles O32: `32767 * x` is `x` short of `32768 * x`, which rounding takes back unless `x` exceeds half a unit. -/
theorem unitWeightIsNearlyIdentity : Obligations.UnitWeightIsNearlyIdentity := by
  intro x
  have hvalue : (fixMpy 32767#16 x).toInt = (32767 * x.toInt + 16384) / 32768 :=
    (toInt_fixMpy_of_ge (a := 32767#16) (by decide) x).1
  obtain ⟨hmin, hmax⟩ := toInt_bounds x
  rw [← BitVec.toInt_inj, hvalue]
  omega
end

section
/-! PROOFS. Where the direction enters (R181, R185): in the sign of the sine alone. At phase index 0 the sine is 0, so
stage 10, which forms no other index, does not depend on it (R183). -/

namespace Sys2Proof.Machine

/-! ## The weights -/

/-- No sine of the decided ROM is -32768, so the two directions take opposite ones (R124, R181). -/
theorem toInt_twSin_twiddleRom_opposite (jp : BitVec 9) :
    (twSin twiddleRom jp).toInt = -(neg16 (twSin twiddleRom jp)).toInt := by
  have hmin := twSin_twiddleRom_nonneg jp
  rw [toInt_neg16_of_ne (by omega), neg_neg]

/-- Halving toward zero, or not at all, keeps opposite words opposite. -/
theorem toInt_passThrough_of_opposite {m : HalveMode} {shift : Bool} (hmode : m = .trunc ∨ shift = false) {x y : Word}
    (h : x.toInt = -y.toInt) : (passThrough m shift x).toInt = -(passThrough m shift y).toInt := by
  cases shift with
  | false => exact h
  | true =>
    obtain rfl : m = .trunc := hmode.resolve_right (by decide)
    change (halve .trunc x).toInt = -(halve .trunc y).toInt
    rw [toInt_halve_trunc, toInt_halve_trunc]
    omega

theorem twiddleWeights_zero_direction (m : HalveMode) (shift : Bool) :
    twiddleWeights m twiddleRom 0#9 true shift = twiddleWeights m twiddleRom 0#9 false shift := by
  have hsine : neg16 (twSin twiddleRom 0#9) = twSin twiddleRom 0#9 := by decide +kernel
  simp only [twiddleWeights, hsine, ite_self]

/-! ## The operations that take no direction -/

/-- The state with `INV` set. -/
def State.withInv (d : Bool) (s : State) : State := { s with inv := d }

/-- To set `INV` before `f` or after it is the same: `f` neither reads nor writes it. -/
def DirectionFree (f : State → State) : Prop := ∀ (d : Bool) (s : State), f (s.withInv d) = (f s).withInv d

theorem directionFree_permSwap (k : Index) : DirectionFree (permSwap k) := by
  intro d s
  unfold permSwap State.withInv
  dsimp only
  split_ifs <;> rfl

theorem directionFree_swapsBelow (n : Nat) : DirectionFree (swapsBelow n) := fun d _ =>
  List.foldl_hom (State.withInv d) fun u k => directionFree_permSwap (BitVec.ofNat 10 k) d u

theorem directionFree_bfly (m : HalveMode) (i j : Index) (wr wi : Word) (shift : Bool) :
    DirectionFree (bfly m i j wr wi shift) := fun _ _ => rfl

theorem directionFree_permAdvance : DirectionFree permAdvance := by
  intro d s
  unfold permAdvance State.withInv
  dsimp only
  split_ifs <;> rfl

theorem directionFree_scanAdvance : DirectionFree scanAdvance := by
  intro d s
  have hshift : (s.withInv d).scannedShift = s.scannedShift := rfl
  simp only [scanAdvance, hshift]
  unfold State.withInv
  dsimp only
  split <;> rfl

theorem directionFree_bflyAdvance : DirectionFree bflyAdvance := by
  intro d s
  unfold bflyAdvance State.withInv
  split_ifs <;> rfl

theorem permStep_withInv {s t : State} (d : Bool) (h : exec .permStep s = .next t) :
    exec .permStep (s.withInv d) = .next (t.withInv d) := by
  obtain ⟨hphase, hdefined, rfl⟩ := execPermStep_eq_next.1 h
  refine execPermStep_eq_next.2 ⟨hphase, hdefined, ?_⟩
  rw [directionFree_permSwap, directionFree_permAdvance]
  rfl

theorem scanStep_withInv {s t : State} (d : Bool) (h : exec .scanStep s = .next t) :
    exec .scanStep (s.withInv d) = .next (t.withInv d) := by
  obtain ⟨hphase, hdefined, rfl⟩ := execScanStep_eq_next.1 h
  exact execScanStep_eq_next.2 ⟨hphase, hdefined, (directionFree_scanAdvance d s).symm⟩

end Sys2Proof.Machine

open Sys2Proof.Machine

/-- Settles O38: the weights by R181, and each operation by what it reads. -/
theorem directionsDifferInTheSineSignOnly : Obligations.DirectionsDifferInTheSineSignOnly := by
  refine ⟨fun m jp shift => ⟨?_, fun hmode => ?_⟩, fun s d => ⟨directionFree_swapsBelow 1024 d s, rfl,
    fun m i j wr wi shift => directionFree_bfly m i j wr wi shift d s, directionFree_bflyAdvance d s,
    fun _ => permStep_withInv d, fun _ => scanStep_withInv d⟩⟩
  · simp only [twiddleWeights_eq]
  · rw [twiddleWeights_eq, twiddleWeights_eq]
    exact toInt_passThrough_of_opposite hmode (toInt_twSin_twiddleRom_opposite jp)

/-- Settles O49: stage 10 has one group, whose phase index is 0. -/
theorem firstStageIsDirectionFree : Obligations.FirstStageIsDirectionFree := by
  intro m shift s htw
  have hstep : stepOfStage 10 = 1 := rfl
  have hindex : passIndex 10 0 = 0#9 := rfl
  simp only [stagePass, groupPass, hstep, List.range_one, List.foldl_cons, List.foldl_nil, hindex, htw,
    twiddleWeights_zero_direction]
end

section
/-! PROOFS. A butterfly reads and writes the two words of its pair alone, so butterflies on disjoint pairs commute, and
after a list of them each pair holds what its one butterfly makes of the words the list began with (R184). -/

namespace Sys2Proof.Machine

namespace State.AgreesOutsideSamples

variable {s t : State}

theorem symm (h : s.AgreesOutsideSamples t) : t.AgreesOutsideSamples s := by
  obtain ⟨re, im, rfl⟩ := h
  exact ⟨s.re, s.im, rfl⟩

theorem tw_eq (h : s.AgreesOutsideSamples t) : t.tw = s.tw := by
  obtain ⟨re, im, rfl⟩ := h
  rfl

end State.AgreesOutsideSamples

/-- The operands of `BFLY` that differ from butterfly to butterfly of a pass: the pair and the weights (R182). -/
structure Butterfly where
  /-- The near index of the pair. -/
  near : Index
  /-- The far index of the pair. -/
  far : Index
  /-- The cosine weight. -/
  wr : Word
  /-- The signed sine weight. -/
  wi : Word

namespace Butterfly

/-- The butterfly on a state, by `BFLY`. -/
def run (m : HalveMode) (shift : Bool) (b : Butterfly) (s : State) : State := bfly m b.near b.far b.wr b.wi shift s

/-- `x` is an index of the pair. -/
def Touches (b : Butterfly) (x : Index) : Prop := x = b.near ∨ x = b.far

/-- The pairs have no index in common. -/
def Apart (a b : Butterfly) : Prop := ∀ x, a.Touches x → ¬ b.Touches x

theorem Apart.symm {a b : Butterfly} (h : a.Apart b) : b.Apart a := fun x hb ha => h x ha hb

variable {m : HalveMode} {shift : Bool} {s t : State} {a b : Butterfly} {x : Index}

/-! ## One butterfly -/

theorem memWf_run (hw : s.memWf) (b : Butterfly) : (b.run m shift s).memWf := memWf_bfly hw ..

theorem agreesOutsideSamples_run (b : Butterfly) (s : State) : s.AgreesOutsideSamples (b.run m shift s) := by
  unfold run bfly
  exact (((State.AgreesOutsideSamples.of_writeSample ..).trans (.of_writeSample ..)).trans (.of_writeSample ..)).trans
    (.of_writeSample ..)

theorem readSample_run_other (hw : s.memWf) (hb : b.near ≠ b.far) (hx : ¬ b.Touches x) (c : Channel) :
    (b.run m shift s).readSample c x = s.readSample c x :=
  readSample_bfly_other hw hb _ _ _ _ c (fun h => hx (.inl h)) fun h => hx (.inr h)

/-- On a pair that reads alike in two states a butterfly makes the same of both. -/
theorem readSample_run_congr (hs : s.memWf) (ht : t.memWf) (hb : b.near ≠ b.far)
    (hpair : ∀ c y, b.Touches y → t.readSample c y = s.readSample c y) (hx : b.Touches x) (c : Channel) :
    (b.run m shift t).readSample c x = (b.run m shift s).readSample c x := by
  have hnear (c : Channel) : t.readSample c b.near = s.readSample c b.near := hpair c _ (.inl rfl)
  have hfar (c : Channel) : t.readSample c b.far = s.readSample c b.far := hpair c _ (.inr rfl)
  rw [run, run, readSample_bfly ht hb, readSample_bfly hs hb]
  simp only [hnear, hfar, hpair c x hx]

/-! ## Two butterflies -/

/-- A butterfly does not see one before it on a pair apart from its own. -/
theorem readSample_run_run (hw : s.memWf) (ha : a.near ≠ a.far) (hb : b.near ≠ b.far) (hab : a.Apart b)
    (hx : b.Touches x) (c : Channel) :
    (b.run m shift (a.run m shift s)).readSample c x = (b.run m shift s).readSample c x :=
  readSample_run_congr hw (memWf_run hw a) hb (fun c y hy => readSample_run_other hw ha (hab.symm y hy) c) hx c

theorem run_comm (hw : s.memWf) (ha : a.near ≠ a.far) (hb : b.near ≠ b.far) (hab : a.Apart b) :
    a.run m shift (b.run m shift s) = b.run m shift (a.run m shift s) := by
  have hwa : (a.run m shift s).memWf := memWf_run hw a
  have hwb : (b.run m shift s).memWf := memWf_run hw b
  have hagree : (b.run m shift (a.run m shift s)).AgreesOutsideSamples (a.run m shift (b.run m shift s)) :=
    ((agreesOutsideSamples_run a s).trans (agreesOutsideSamples_run b _)).symm.trans
      ((agreesOutsideSamples_run b s).trans (agreesOutsideSamples_run a _))
  refine hagree.eq_of_sameSamples (memWf_run hwa b) (memWf_run hwb a) fun c x => ?_
  by_cases hxa : a.Touches x
  · rw [readSample_run_run hw hb ha hab.symm hxa, readSample_run_other hwa hb (hab x hxa)]
  · rw [readSample_run_other hwb ha hxa]
    by_cases hxb : b.Touches x
    · rw [readSample_run_run hw ha hb hab hxb]
    · rw [readSample_run_other hwa hb hxb, readSample_run_other hw ha hxa, readSample_run_other hw hb hxb]

/-! ## A list of butterflies -/

/-- The butterflies of a list, one after another. -/
def runAll (m : HalveMode) (shift : Bool) (bs : List Butterfly) (s : State) : State :=
  bs.foldl (fun u b => b.run m shift u) s

theorem agreesOutsideSamples_runAll (bs : List Butterfly) (s : State) :
    s.AgreesOutsideSamples (runAll m shift bs s) :=
  List.foldlRecOn _ _ (.refl s) fun _ h _ _ => h.trans (agreesOutsideSamples_run ..)

theorem readSample_runAll_other {bs : List Butterfly} (hw : s.memWf) (hbs : ∀ b ∈ bs, b.near ≠ b.far)
    (hx : ∀ b ∈ bs, ¬ b.Touches x) (c : Channel) : (runAll m shift bs s).readSample c x = s.readSample c x := by
  induction bs generalizing s with
  | nil => rfl
  | cons a bs ih =>
    rw [List.forall_mem_cons] at hbs hx
    exact (ih (memWf_run hw a) hbs.2 hx.2).trans (readSample_run_other hw hbs.1 hx.1 c)

/-- On pairs apart from each other, each butterfly finds the words the list began with, and its results stay. -/
theorem readSample_runAll {bs : List Butterfly} (hw : s.memWf) (hbs : ∀ b ∈ bs, b.near ≠ b.far)
    (hapart : bs.Pairwise Apart) (hb : b ∈ bs) (hx : b.Touches x) (c : Channel) :
    (runAll m shift bs s).readSample c x = (b.run m shift s).readSample c x := by
  induction bs generalizing s with
  | nil => cases hb
  | cons a bs ih =>
    rw [List.forall_mem_cons] at hbs
    rw [List.pairwise_cons] at hapart
    obtain ⟨ha, hbs⟩ := hbs
    obtain ⟨hfirst, hrest⟩ := hapart
    have hwa : (a.run m shift s).memWf := memWf_run hw a
    obtain rfl | hmem := List.mem_cons.1 hb
    · exact readSample_runAll_other hwa hbs (fun b' hb' => hfirst b' hb' x hx) c
    · exact (ih hwa hbs hrest hmem).trans (readSample_run_run hw ha (hbs b hmem) (hfirst b hmem) hx c)

end Butterfly
end Sys2Proof.Machine

open Sys2Proof.Machine

/-- Settles O50: on four different indices the two pairs are apart. -/
theorem disjointButterfliesCommute : Obligations.DisjointButterfliesCommute := by
  intro m shift s i j k l wr wi vr vi hw hdistinct
  obtain ⟨⟨hij, hik, hil⟩, ⟨hjk, hjl⟩, hkl⟩ :
      (i ≠ j ∧ i ≠ k ∧ i ≠ l) ∧ (j ≠ k ∧ j ≠ l) ∧ k ≠ l := by simpa using hdistinct
  refine Butterfly.run_comm (a := ⟨i, j, wr, wi⟩) (b := ⟨k, l, vr, vi⟩) hw hij hkl ?_
  rintro x (rfl | rfl) (hk | hl)
  · exact hik hk
  · exact hil hl
  · exact hjk hk
  · exact hjl hl
end

section
/-! PROOFS. A stage pass is the list of its butterflies (R183). Their pairs partition the samples, so every pair is
replaced by its butterfly of the words the pass began with (R184); without a shift and for small samples, exactly
(R186). -/

namespace Sys2Proof.Machine

/-- Butterfly `t` of group `g` of a stage, with the weights of the group (R103, R181). -/
def passButterfly (m : HalveMode) (tw : Vector Word 769) (stage : Nat) (inv shift : Bool) (g t : Nat) : Butterfly :=
  let w := twiddleWeights m tw (passIndex stage g) inv shift
  ⟨nearIndex (stepOfStage stage) g t, passFarIndex (stepOfStage stage) g t, w.1, w.2⟩

/-- The butterflies of one group, in the order of the pass. -/
def groupButterflies (m : HalveMode) (tw : Vector Word 769) (stage : Nat) (inv shift : Bool) (g : Nat) :
    List Butterfly :=
  (List.range (512 / stepOfStage stage)).map (passButterfly m tw stage inv shift g)

/-- The butterflies of a stage, in the order of the pass. -/
def passButterflies (m : HalveMode) (tw : Vector Word 769) (stage : Nat) (inv shift : Bool) : List Butterfly :=
  (List.range (stepOfStage stage)).flatMap (groupButterflies m tw stage inv shift)

variable {m : HalveMode} {stage : Nat} {inv shift : Bool} {tw : Vector Word 769}

/-! ## The pass as a list -/

theorem groupPass_eq_runAll (g : Nat) (s : State) :
    groupPass m stage inv shift g s = Butterfly.runAll m shift (groupButterflies m s.tw stage inv shift g) s := by
  rw [Butterfly.runAll, groupButterflies, List.foldl_map]
  rfl

/-- No group changes the ROM, so every group has its weights from the ROM of the state the pass began with. -/
theorem foldl_groupPass (gs : List Nat) {s : State} (htw : s.tw = tw) :
    gs.foldl (fun u g => groupPass m stage inv shift g u) s =
      gs.foldl (fun u g => Butterfly.runAll m shift (groupButterflies m tw stage inv shift g) u) s := by
  induction gs generalizing s with
  | nil => rfl
  | cons g gs ih =>
    rw [List.foldl_cons, List.foldl_cons, groupPass_eq_runAll, htw]
    exact ih ((Butterfly.agreesOutsideSamples_runAll _ s).tw_eq.trans htw)

theorem stagePass_eq_runAll (s : State) :
    stagePass m stage inv shift s = Butterfly.runAll m shift (passButterflies m s.tw stage inv shift) s := by
  rw [Butterfly.runAll, passButterflies, List.foldl_flatMap]
  exact foldl_groupPass _ rfl

/-! ## Its pairs -/

section
variable {g t g' t' : Nat} (hg : g < stepOfStage stage) (ht : t < 512 / stepOfStage stage)
include hg ht

/-- The group and the number of a butterfly, from an index of its pair (R103). -/
theorem passButterfly_position_of_touches {x : Index} (hx : (passButterfly m tw stage inv shift g t).Touches x) :
    g = x.toNat % stepOfStage stage ∧ t = x.toNat / (2 * stepOfStage stage) := by
  obtain h | h := hx
  · obtain ⟨hgroup, hnumber, -⟩ := (nearIndex_eq_iff hg ht x).1 h.symm
    exact ⟨hgroup, hnumber⟩
  · obtain ⟨hgroup, hnumber, -⟩ := (passFarIndex_eq_iff hg ht x).1 h.symm
    exact ⟨hgroup, hnumber⟩

theorem passButterfly_near_ne_far :
    (passButterfly m tw stage inv shift g t).near ≠ (passButterfly m tw stage inv shift g t).far := by
  intro h
  obtain ⟨-, -, hone⟩ := (passFarIndex_eq_iff hg ht _).1 h.symm
  obtain ⟨-, -, hzero⟩ := (nearIndex_eq_iff hg ht _).1 rfl
  exact Bool.false_ne_true (hzero.symm.trans hone)

theorem mem_passButterflies : passButterfly m tw stage inv shift g t ∈ passButterflies m tw stage inv shift :=
  List.mem_flatMap.2 ⟨g, List.mem_range.2 hg, List.mem_map_of_mem (List.mem_range.2 ht)⟩

theorem passButterfly_apart_of_ne (hg' : g' < stepOfStage stage) (ht' : t' < 512 / stepOfStage stage)
    (hne : g ≠ g' ∨ t ≠ t') :
    (passButterfly m tw stage inv shift g t).Apart (passButterfly m tw stage inv shift g' t') := by
  intro x hx hx'
  obtain ⟨hgroup, hnumber⟩ := passButterfly_position_of_touches hg ht hx
  obtain ⟨hgroup', hnumber'⟩ := passButterfly_position_of_touches hg' ht' hx'
  omega

end

theorem forall_mem_passButterflies {p : Butterfly → Prop} :
    (∀ b ∈ passButterflies m tw stage inv shift, p b) ↔
      ∀ g < stepOfStage stage, ∀ t < 512 / stepOfStage stage, p (passButterfly m tw stage inv shift g t) := by
  simp only [passButterflies, groupButterflies, List.forall_mem_flatMap, List.forall_mem_map, List.mem_range]

theorem pairwise_apart_passButterflies : (passButterflies m tw stage inv shift).Pairwise Butterfly.Apart := by
  refine List.pairwise_flatMap.2 ⟨fun g hg => ?_, ?_⟩
  · refine List.pairwise_map.2 (List.nodup_range.pairwise_of_forall_ne fun t ht t' ht' hne => ?_)
    rw [List.mem_range] at hg ht ht'
    exact passButterfly_apart_of_ne hg ht hg ht' (.inr hne)
  · refine List.nodup_range.pairwise_of_forall_ne fun g hg g' hg' hne => ?_
    rw [List.mem_range] at hg hg'
    simp only [groupButterflies, List.forall_mem_map, List.mem_range]
    exact fun t ht t' ht' => passButterfly_apart_of_ne hg ht hg' ht' (.inl hne)

/-! ## What the pass does -/

theorem agreesOutsideSamples_stagePass (s : State) : s.AgreesOutsideSamples (stagePass m stage inv shift s) := by
  rw [stagePass_eq_runAll]
  exact Butterfly.agreesOutsideSamples_runAll _ s

theorem readSample_stagePass {s : State} (hw : s.memWf) {g t : Nat} (hg : g < stepOfStage stage)
    (ht : t < 512 / stepOfStage stage) {x : Index} (hx : (passButterfly m s.tw stage inv shift g t).Touches x)
    (c : Channel) :
    (stagePass m stage inv shift s).readSample c x =
      ((passButterfly m s.tw stage inv shift g t).run m shift s).readSample c x := by
  rw [stagePass_eq_runAll]
  exact Butterfly.readSample_runAll hw (forall_mem_passButterflies.2 fun _ hg _ ht => passButterfly_near_ne_far hg ht)
    pairwise_apart_passButterflies (mem_passButterflies hg ht) hx c

end Sys2Proof.Machine

open Sys2Proof.Machine

/-- Settles O55: the pass leaves a pair as its one butterfly does, and changes nothing but samples. -/
theorem stagePassComputesEveryButterfly : Obligations.StagePassComputesEveryButterfly := by
  intro m stage g t inv shift s hw _ _ hg ht i j w p u
  have hij : i ≠ j := passButterfly_near_ne_far (m := m) (tw := s.tw) (inv := inv) (shift := shift) hg ht
  have hi (c) : u.readSample c i = (bfly m i j w.1 w.2 shift s).readSample c i :=
    readSample_stagePass hw hg ht (.inl rfl) c
  have hj (c) : u.readSample c j = (bfly m i j w.1 w.2 shift s).readSample c j :=
    readSample_stagePass hw hg ht (.inr rfl) c
  have hframe : s.sameRegisters u ∧ s.sameRoms u ∧ s.samePorts u ∧ u.halveMode = s.halveMode := by
    obtain ⟨re, im, hu⟩ : s.AgreesOutsideSamples u := agreesOutsideSamples_stagePass s
    simp [hu, State.sameRegisters, State.sameRoms, State.samePorts]
  obtain ⟨hnear, hnear'⟩ := readSample_bfly_near hw hij m w.1 w.2 shift
  obtain ⟨hfar, hfar'⟩ := readSample_bfly_far hw hij m w.1 w.2 shift
  rw [hi, hi, hj, hj]
  exact ⟨hnear, hnear', hfar, hfar', hframe⟩

/-- Settles O56: each pair by O55, and the four words exactly by O31, for no weight is -32768. -/
theorem stageOfSmallSamplesNeverWraps : Obligations.StageOfSmallSamplesNeverWraps := by
  intro m stage g t inv s hw htw hsmall h1 h10 hg ht i j w tr ti u
  obtain ⟨hnearRe, hnearIm, hfarRe, hfarIm, -⟩ := stagePassComputesEveryButterfly m stage g t inv false s hw h1 h10 hg ht
  obtain ⟨hwr, hwi⟩ := twiddleWeights_ge htw m (passIndex stage g) inv false
  obtain ⟨hnear, hfar, hnear', hfar'⟩ := smallOperandsNeverWrap w.1 w.2 (s.readSample .re j) (s.readSample .im j)
    (s.readSample .re i) (s.readSample .im i) (abs_le.2 ⟨hwr, (toInt_bounds _).2⟩) (abs_le.2 ⟨hwi, (toInt_bounds _).2⟩)
    (hsmall ..) (hsmall ..) (hsmall ..) (hsmall ..)
  exact ⟨(congrArg BitVec.toInt hnearRe).trans hnear, (congrArg BitVec.toInt hnearIm).trans hnear',
    (congrArg BitVec.toInt hfarRe).trans hfar, (congrArg BitVec.toInt hfarIm).trans hfar'⟩
end

section
/-! PROOFS. The operations while no transform runs: `START` by a command or by a hold, and the access to one word, alone
or in the micro-step of a `START` (R222, R223, R227, R230, R231, R234). -/

namespace Sys2Proof.Machine

variable {s : State}

/-! ## `START` -/

/-- What `START` writes, and what it leaves alone (R222). -/
theorem startTransform_effect (inverse : Bool) (s : State) :
    (s.startTransform inverse).registersStarted inverse ∧ s.sameSamples (s.startTransform inverse) ∧
      s.sameRoms (s.startTransform inverse) ∧ s.samePorts (s.startTransform inverse) :=
  ⟨by simp [State.registersStarted], readSample_startTransform inverse s, ⟨rfl, rfl⟩, rfl, rfl⟩

theorem command_of_not_busy (hb : s.busy = false) (hd : s.registersDefined = true) (inverse : Bool) :
    command inverse s = .next (s.startTransform inverse) := command_eq_next.2 (.inr ⟨hb, hd, rfl⟩)

theorem command_of_busy (hb : s.busy = true) (inverse : Bool) : command inverse s = .next s :=
  command_eq_next.2 (.inl ⟨hb, rfl⟩)

theorem hold_of_start {p : Phase} (hp : s.phase = p) (hd : s.registersDefined = true) (hs : s.pins.start = true) :
    hold p s = .next (s.startTransform s.pins.inverse) := hold_eq_next.2 ⟨hp, hd, by rw [if_pos hs]⟩

theorem hold_of_no_start {p : Phase} (hp : s.phase = p) (hd : s.registersDefined = true)
    (hs : s.pins.start = false) : hold p s = .next s := hold_eq_next.2 ⟨hp, hd, by rw [hs, if_neg Bool.false_ne_true]⟩

/-- A hold in either form, in the words of R223 and R227. -/
theorem hold_waits_for_start {p : Phase} (hp : s.phase = p) (hd : s.registersDefined = true) :
    (s.pins.start = false → hold p s = .next s) ∧
      (s.pins.start = true → ∃ t, hold p s = .next t ∧ t.registersStarted s.pins.inverse ∧ s.sameSamples t ∧
        s.sameRoms t ∧ s.samePorts t) :=
  ⟨hold_of_no_start hp hd, fun hs => ⟨_, hold_of_start hp hd hs, startTransform_effect ..⟩⟩

/-! ## A host access -/

/-- A write stores its word and touches nothing else (R230). -/
theorem exec_writeInstr_effect (hw : s.memWf) (hb : s.busy = false) (c : Channel) (k : Index) (v : Word) :
    ∃ t, exec (writeInstr c k v) s = .next t ∧ t.readSample c k = v ∧
      (∀ e l, e ≠ c ∨ l ≠ k → t.readSample e l = s.readSample e l) ∧ s.sameRegisters t ∧ s.sameRoms t ∧
      s.samePorts t :=
  ⟨_, exec_writeInstr hb c k v, readSample_writeSample_self hw c k v,
    fun _ _ h => readSample_writeSample_other (h.imp_left Ne.symm) v s, by simp [State.sameRegisters],
    by simp [State.sameRoms], by simp [State.samePorts]⟩

theorem exec_decodeHacc_write (hb : s.busy = false) (c : Channel) (k : Index) (v : Word) :
    exec (decodeHacc (haccWord 1#1 (if c = .re then 0#1 else 1#1) k v)) s = .next (s.writeSample c k v) := by
  cases c with
  | re => exact (congrArg (exec · s) (decodeHacc_hwrRe k v)).trans (exec_writeInstr hb .re k v)
  | im => exact (congrArg (exec · s) (decodeHacc_hwrIm k v)).trans (exec_writeInstr hb .im k v)

/-- A read returns its word on `hrdata`, whatever `wdata` is (R231). -/
theorem exec_decodeHacc_read (hb : s.busy = false) (c : Channel) (k : Index) (v : Word) :
    exec (decodeHacc (haccWord 0#1 (if c = .re then 0#1 else 1#1) k v)) s =
      .next (s.setHrdata (some (s.readSample c k))) := by
  cases c with
  | re => exact (congrArg (exec · s) (decodeHacc_hrdRe k v)).trans (execHrdRe_eq_next.2 ⟨hb, rfl⟩)
  | im => exact (congrArg (exec · s) (decodeHacc_hrdIm k v)).trans (execHrdIm_eq_next.2 ⟨hb, rfl⟩)

/-! ## The micro-step of an accepted `START` -/

theorem engineOperation_of_start (hs : s.pins.start = true) (hb : s.busy = false) (hd : s.registersDefined = true) :
    engineOperation s = .next (s.startTransform s.pins.inverse) := by
  rw [engineOperation, engineWord_of_start hs hb, runWord_command, command_of_not_busy hb hd]

/-- What decides about the engine's operation stands as before the host access. -/
theorem hostAccess_keeps_guards {u : State} (hacc : hostAccess (s.setHrdata none) = .next u) :
    u.pins = s.pins ∧ u.busy = s.busy ∧ u.registersDefined = s.registersDefined := by
  obtain ⟨-, -, hscale, -, -, hphase, -, hstage, hstep, -, -, hhost⟩ := hostAccess_frame hacc
  exact ⟨pins_congr hhost, busy_congr hphase, registersDefined_congr hscale hstage hstep⟩

/-- Whatever the host access of the micro-step leaves, the accepted `START` follows it (R234). -/
theorem step_of_start {u : State} (hr : s.pins.reset = false) (hs : s.pins.start = true) (hb : s.busy = false)
    (hd : s.registersDefined = true) (hacc : hostAccess (s.setHrdata none) = .next u) :
    step s = .next (u.startTransform s.pins.inverse).popInput := by
  obtain ⟨hpins, hbusy, hdefined⟩ := hostAccess_keeps_guards hacc
  have hstart : engineOperation u = .next (u.startTransform u.pins.inverse) :=
    engineOperation_of_start (hpins ▸ hs) (hbusy.trans hb) (hdefined.trans hd)
  exact step_eq_next.2 (.inr ⟨hr, u, _, hacc, hstart, hpins ▸ rfl⟩)

/-- Without a start the hold follows the host access and changes nothing. -/
theorem step_of_hold {u : State} (hr : s.pins.reset = false) (hs : s.pins.start = false) (hb : s.busy = false)
    (hd : s.registersDefined = true) (hacc : hostAccess (s.setHrdata none) = .next u) :
    step s = .next u.popInput := by
  obtain ⟨hpins, hbusy, hdefined⟩ := hostAccess_keeps_guards hacc
  have hhold : engineOperation u = .next u :=
    engineOperation_of_quiet (hbusy.trans hb) (hpins ▸ hs) (hdefined.trans hd)
  exact step_eq_next.2 (.inr ⟨hr, u, u, hacc, hhold, rfl⟩)

/-- `START` beside an access, given by its word. -/
theorem step_of_access_and_start {d : Bool} {w : BitVec 28} {rest : List HostInput} {u : State} (hb : s.busy = false)
    (hd : s.registersDefined = true) (hhost : s.host = ⟨false, true, d, true, w⟩ :: rest)
    (ha : exec (decodeHacc w) (s.setHrdata none) = .next u) : step s = .next (u.startTransform d).popInput := by
  have hpins : s.pins = ⟨false, true, d, true, w⟩ := by rw [State.pins, hhost, List.headD_cons]
  have hpins' : (s.setHrdata none).pins = ⟨false, true, d, true, w⟩ := hpins
  have hacc : hostAccess (s.setHrdata none) = .next u := by
    rw [hostAccess_of_access (by rw [hpins']), hpins', ha]
  have hstep := step_of_start (by rw [hpins]) (by rw [hpins]) hb hd hacc
  rwa [hpins] at hstep

end Sys2Proof.Machine

open Sys2Proof.Machine

/-- Settles O12: a command is ignored while busy and performs `START` otherwise. -/
theorem commandStartsTransform : Obligations.CommandStartsTransform :=
  fun s => ⟨fun hb hd => ⟨⟨_, command_of_not_busy hb hd false, startTransform_effect false s⟩,
    _, command_of_not_busy hb hd true, startTransform_effect true s⟩,
    fun hb => ⟨command_of_busy hb false, command_of_busy hb true⟩⟩

/-- Settles O16: the outputs of the phase, and the hold with and without a start. -/
theorem holdWaitsForStart : Obligations.HoldWaitsForStart := by
  refine fun s hd => ⟨fun hp => ⟨busy_eq_false.2 (.inl hp), ?_, hold_waits_for_start hp hd⟩,
    fun hp => ⟨busy_eq_false.2 (.inr hp), doneOut_eq_true.2 hp, hold_waits_for_start hp hd⟩⟩
  rw [State.doneOut, hp]

/-- Settles O13: a read while not busy sets the read data and nothing else. -/
theorem hostReadReturnsWord : Obligations.HostReadReturnsWord :=
  fun _ _ hb => ⟨execHrdRe_eq_next.2 ⟨hb, rfl⟩, execHrdIm_eq_next.2 ⟨hb, rfl⟩⟩

/-- Settles O14: the write of either channel. -/
theorem hostWriteStoresWord : Obligations.HostWriteStoresWord :=
  fun _ k v hw hb => ⟨exec_writeInstr_effect hw hb .re k v, exec_writeInstr_effect hw hb .im k v⟩

/-- Settles O11: `START` follows the access in the same step and touches no sample and no read data. -/
theorem accessPrecedesStart : Obligations.AccessPrecedesStart := by
  refine fun s d c k v rest hw hb hd => ⟨fun hhost => ?_, fun hhost => ?_⟩
  · refine ⟨_, step_of_access_and_start hb hd hhost (exec_decodeHacc_write (s := s.setHrdata none) hb c k v),
      by simp [State.registersStarted], ?_, fun e l h => ?_, by simp [State.sameRoms], by simp, by simp [hhost]⟩
    · rw [readSample_popInput, readSample_startTransform]
      exact readSample_writeSample_self (s := s.setHrdata none) hw c k v
    · rw [readSample_popInput, readSample_startTransform, readSample_writeSample_other (h.imp_left Ne.symm),
        readSample_setHrdata]
  · exact ⟨_, step_of_access_and_start hb hd hhost (exec_decodeHacc_read (s := s.setHrdata none) hb c k v),
      by simp [State.registersStarted], fun e l => by simp, by simp [State.sameRoms], by simp, by simp [hhost]⟩
end

section
/-! PROOFS. The two forms of the advance of `SCAN.STEP` (R225) and the four of `BFLY.STEP` (R226). -/

namespace Sys2Proof.Machine

variable {s : State}

/-! ## The scan -/

theorem scanAdvance_of_lt (h : s.idx.toNat < 1023) :
    scanAdvance s = { s with shift := s.scannedShift, idx := s.idx + 1#10 } := if_pos h

theorem scanAdvance_of_last (h : s.idx.toNat = 1023) :
    scanAdvance s =
      { s with
        shift := s.scannedShift, scale := if s.scannedShift then s.scale + 1#4 else s.scale,
        idx := 0#10, g := 0#10, i := 0#10, phase := .bfly } := if_neg (by omega)

theorem scanAdvance_shift (s : State) : (scanAdvance s).shift = s.scannedShift := by
  unfold scanAdvance
  dsimp only
  split <;> rfl

/-- A sample is out of range when a component of it is (R127, R211). -/
theorem sample_oor_iff (k : Index) :
    (oor (s.readSample .re k) || oor (s.readSample .im k)) = true ↔
      ∃ c : Channel, (s.readSample c k).toInt < -16384 ∨ 16383 < (s.readSample c k).toInt := by
  rw [Bool.or_eq_true, oor_eq_true_iff, oor_eq_true_iff]
  constructor
  · rintro (h | h)
    · exact ⟨.re, h⟩
    · exact ⟨.im, h⟩
  · rintro ⟨c, h⟩
    cases c with
    | re => exact .inl h
    | im => exact .inr h

theorem scannedShift_eq_or (s : State) :
    s.scannedShift = (s.shift || (oor (s.readSample .re s.idx) || oor (s.readSample .im s.idx))) :=
  Bool.or_assoc ..

/-! ## The butterfly pass -/

theorem bflyAdvance_of_next (h : s.i.toNat + 2 * s.step.toNat < 1024) :
    bflyAdvance s = { s with i := BitVec.ofNat 10 (s.i.toNat + 2 * s.step.toNat) } := if_pos h

theorem bflyAdvance_of_group (hi : 1024 ≤ s.i.toNat + 2 * s.step.toNat) (hg : s.g.toNat + 1 < s.step.toNat) :
    bflyAdvance s = { s with g := s.g + 1#10, i := s.g + 1#10 } := (if_neg (by omega)).trans (if_pos hg)

theorem stage_sub_one_eq_zero_iff {stage : BitVec 4} : stage - 1#4 = 0#4 ↔ stage = 1#4 := by
  revert stage
  decide

theorem bflyAdvance_of_done (hi : 1024 ≤ s.i.toNat + 2 * s.step.toNat) (hg : s.step.toNat ≤ s.g.toNat + 1)
    (hstage : s.stage = 1#4) :
    bflyAdvance s =
      { s with
        step := BitVec.ofNat 11 (2 * s.step.toNat), stage := 0#4, g := 0#10, i := 0#10, phase := .done } :=
  (if_neg (by omega)).trans ((if_neg (by omega)).trans (if_pos (stage_sub_one_eq_zero_iff.2 hstage)))

theorem bflyAdvance_of_stage (hi : 1024 ≤ s.i.toNat + 2 * s.step.toNat) (hg : s.step.toNat ≤ s.g.toNat + 1)
    (hstage : s.stage ≠ 1#4) :
    bflyAdvance s =
      { s with
        step := BitVec.ofNat 11 (2 * s.step.toNat), stage := s.stage - 1#4, g := 0#10, i := 0#10,
        idx := 0#10, shift := false, phase := .scan } :=
  (if_neg (by omega)).trans ((if_neg (by omega)).trans (if_neg (mt stage_sub_one_eq_zero_iff.1 hstage)))

end Sys2Proof.Machine

open Sys2Proof.Machine

/-- Settles O18: `SHIFT` and the counters by the two forms of the advance, which touches no sample. -/
theorem scanStepAccumulatesShift : Obligations.ScanStepAccumulatesShift := by
  intro s hp hd
  refine ⟨_, execScanStep_eq_next.2 ⟨hp, hd, rfl⟩, ?_, fun hidx => ?_, fun hidx => ?_, fun c k => by simp, by simp,
    by simp, by simp, by simp [State.sameRoms], by simp [State.samePorts]⟩
  · rw [scanAdvance_shift, scannedShift_eq_or, Bool.or_eq_true, sample_oor_iff]
  · rw [scanAdvance_of_lt hidx]
    exact ⟨toNat_index_succ hidx, rfl, rfl, rfl, hp⟩
  · rw [scanAdvance_of_last hidx]
    exact ⟨rfl, rfl, rfl, rfl, rfl⟩

/-- Settles O20: the butterfly touches no counter, and the advance has the four forms of R226. -/
theorem bflyStepAdvancesCounters : Obligations.BflyStepAdvancesCounters := by
  intro s hp hd h1 hg hfar
  obtain ⟨-, h10, -⟩ := registersDefined_iff.1 hd
  have hj : (BitVec.ofNat 10 (s.i.toNat + s.step.toNat)).toNat = s.i.toNat + s.step.toNat := Nat.mod_eq_of_lt hfar
  refine ⟨_, exec_bflyStep_of_indices hp hd h1 hg (toNat_passIndex h1 h10 hg) hj, fun hnext => ?_,
    fun hend hgroup => ?_, fun hend hlast => ?_⟩
  · rw [bflyAdvance_of_next (by simpa using hnext)]
    simpa [hp] using hnext
  · rw [bflyAdvance_of_group (by simpa using hend) (by simpa using hgroup)]
    have hval : (s.g + 1#10).toNat = s.g.toNat + 1 := toNat_index_succ (by omega)
    simp [hp, hval]
  · have hdouble : (BitVec.ofNat 11 (2 * s.step.toNat)).toNat = 2 * s.step.toNat := Nat.mod_eq_of_lt (by omega)
    have hpred : (s.stage - 1#4).toNat = s.stage.toNat - 1 := BitVec.toNat_sub_of_le h1
    by_cases hstage : s.stage = 1#4
    · rw [bflyAdvance_of_done (by simpa using hend) (by simpa using hlast) (by simpa using hstage)]
      simp [hdouble, hstage]
    · rw [bflyAdvance_of_stage (by simpa using hend) (by simpa using hlast) (by simpa using hstage)]
      simp [hdouble, hpred, hstage]
end

section
/-! PROOFS. A micro-step while busy: the micro-operation of the phase, which sees neither the inputs nor the read data
(R97, R233), and which has a meaning whenever the sequencer registers agree with the phase (R36). -/

namespace Sys2Proof.Machine

/-- The micro-operation `PHASE` selects (R97). -/
def microOperation (s : State) : Answer := runWord (.uop s.phase.code) s

variable {s : State}

theorem microOperation_perm (hp : s.phase = .perm) (hd : s.registersDefined = true) :
    microOperation s = .next (permAdvance (permSwap s.idx s)) := by
  rw [microOperation, runWord_code, hp]
  exact execPermStep_eq_next.2 ⟨hp, hd, rfl⟩

theorem microOperation_scan (hp : s.phase = .scan) (hd : s.registersDefined = true) :
    microOperation s = .next (scanAdvance s) := by
  rw [microOperation, runWord_code, hp]
  exact execScanStep_eq_next.2 ⟨hp, hd, rfl⟩

theorem microOperation_bfly (hp : s.phase = .bfly) : microOperation s = exec .bflyStep s := by
  rw [microOperation, runWord_code, hp]
  rfl

/-! ## The micro-operations do not see the ports -/

/-- The state with other read data and other inputs. -/
def State.withPorts (hrdata : Option Word) (host : List HostInput) (s : State) : State :=
  { s with hrdata := hrdata, host := host }

/-- To set the ports before `f` or after it is the same: `f` neither reads nor writes them. -/
def PortFree (f : State → State) : Prop :=
  ∀ (hrdata : Option Word) (host : List HostInput) (s : State),
    f (s.withPorts hrdata host) = (f s).withPorts hrdata host

theorem portFree_permSwap (k : Index) : PortFree (permSwap k) := by
  intro hrdata host s
  unfold permSwap State.withPorts
  dsimp only
  split_ifs <;> rfl

theorem portFree_permAdvance : PortFree permAdvance := by
  intro hrdata host s
  unfold permAdvance State.withPorts
  dsimp only
  split_ifs <;> rfl

theorem portFree_scanAdvance : PortFree scanAdvance := by
  intro hrdata host s
  have hshift : (s.withPorts hrdata host).scannedShift = s.scannedShift := rfl
  simp only [scanAdvance, hshift]
  unfold State.withPorts
  dsimp only
  split <;> rfl

theorem portFree_bflyAdvance : PortFree bflyAdvance := by
  intro hrdata host s
  unfold bflyAdvance State.withPorts
  split_ifs <;> rfl

/-- A guarded micro-operation with a port-free body answers the same next state but for the ports, or the same
refusal. -/
theorem microOp_withPorts {p : Phase} {k : State → Answer} (hrdata : Option Word) (host : List HostInput)
    (hk : k (s.withPorts hrdata host) = andThen (k s) fun t => .next (t.withPorts hrdata host)) :
    microOp p (s.withPorts hrdata host) k = andThen (microOp p s k) fun t => .next (t.withPorts hrdata host) := by
  have hphase : (s.withPorts hrdata host).phase = s.phase := rfl
  have hdefined : (s.withPorts hrdata host).registersDefined = s.registersDefined := rfl
  unfold microOp engineOp
  rw [hphase, hdefined]
  split_ifs
  · exact hk
  · rfl
  · rfl

theorem execBflyStep_withPorts (hrdata : Option Word) (host : List HostInput) (s : State) :
    execBflyStep (s.withPorts hrdata host) =
      andThen (execBflyStep s) fun t => .next (t.withPorts hrdata host) := by
  refine microOp_withPorts hrdata host ?_
  dsimp only [State.withPorts]
  cases twiddle s.halveMode s.tw s.g s.stage s.inv s.shift with
  | none => rfl
  | some w =>
    cases farIndex s.i s.step with
    | none => rfl
    | some j =>
      exact congrArg Host.Outcome.next
        (portFree_bflyAdvance hrdata host (bfly s.halveMode s.i j w.1 w.2 s.shift s))

/-- While busy the micro-operation does not see the ports. -/
theorem microOperation_withPorts (hb : s.busy = true) (hrdata : Option Word) (host : List HostInput) :
    microOperation (s.withPorts hrdata host) =
      andThen (microOperation s) fun t => .next (t.withPorts hrdata host) := by
  have hphase : (s.withPorts hrdata host).phase = s.phase := rfl
  rw [microOperation, microOperation, hphase, runWord_code, runWord_code]
  obtain hp | hp | hp := busy_eq_true.1 hb <;> rw [hp]
  · refine microOp_withPorts hrdata host (congrArg Host.Outcome.next ?_)
    exact (congrArg permAdvance (portFree_permSwap s.idx hrdata host s)).trans (portFree_permAdvance hrdata host _)
  · exact microOp_withPorts hrdata host (congrArg Host.Outcome.next (portFree_scanAdvance hrdata host s))
  · exact execBflyStep_withPorts hrdata host s

/-! ## The step while busy -/

/-- Without reset and access: the micro-operation, after which no read data stand and the inputs are used up. -/
theorem step_of_busy (hb : s.busy = true) (hr : s.pins.reset = false) (hv : s.pins.hvalid = false) :
    step s = andThen (microOperation s) fun t => .next (t.withPorts none s.host.tail) := by
  have hword : s.engineWord = .uop s.phase.code := engineWord_of_no_start (.inr hb)
  have hdecode : decode s.engineWord = .ok (microInstr s.phase) := hword ▸ decode_code s.phase
  have hexec : exec (microInstr s.phase) (s.setHrdata none) = microOperation (s.withPorts none s.host) :=
    (runWord_of_decode (decode_code s.phase) _).symm
  rw [step_eq_exec hr hv hdecode, hexec, microOperation_withPorts hb]
  cases microOperation s <;> rfl

/-- With an access and without reset: no step (R69). -/
theorem step_of_access_while_busy (hb : s.busy = true) (hr : s.pins.reset = false) (hv : s.pins.hvalid = true) :
    step s = .refused .hostAccessWhileBusy := by
  have hacc : hostAccess (s.setHrdata none) = .refused .hostAccessWhileBusy := by
    rw [hostAccess_of_access (s := s.setHrdata none) hv]
    obtain ⟨hre, him, hwre, hwim⟩ :=
      (hostAccessWhileBusyIsRefused (s.setHrdata none) (haccIdx s.pins.hacc) (haccWdata s.pins.hacc)).1 hb
    unfold decodeHacc
    split
    · exact hre
    · exact him
    · exact hwre
    · exact hwim
  rw [step, microStep, if_neg (by simp [hr]), hacc]
  rfl

/-! ## The micro-operation under the invariant -/

/-- Registers that agree with their phase hold values with a meaning. -/
theorem SequencerInv.registersDefined (h : SequencerInv s) : s.registersDefined = true := by
  refine registersDefined_iff.2 ⟨h.scale_le, ?_⟩
  cases hp : s.phase with
  | idle =>
    obtain ⟨-, -, -, -, hstage, hstep, -⟩ := (sequencerInv_idle hp).1 h
    exact ⟨by simp [hstage], 0, by simp [hstep]⟩
  | perm =>
    obtain ⟨-, -, hstage, hstep, -⟩ := (sequencerInv_perm hp).1 h
    exact ⟨by simp [hstage], 0, by simp [hstep]⟩
  | scan =>
    obtain ⟨-, h10, hstep, -⟩ := h.stage_registers (.inl hp)
    exact ⟨h10, ⟨10 - s.stage.toNat, by omega⟩, hstep⟩
  | bfly =>
    obtain ⟨-, h10, hstep, -⟩ := h.stage_registers (.inr hp)
    exact ⟨h10, ⟨10 - s.stage.toNat, by omega⟩, hstep⟩
  | done =>
    obtain ⟨-, hstage, hstep, -⟩ := (sequencerInv_done hp).1 h
    exact ⟨by simp [hstage], 10, by simp [hstep]⟩

/-- While busy the engine never stalls (R220). -/
theorem SequencerInv.exists_microOperation (h : SequencerInv s) (hb : s.busy = true) :
    ∃ t, microOperation s = .next t := by
  have hd := h.registersDefined
  obtain hp | hp | hp := busy_eq_true.1 hb
  · exact ⟨_, microOperation_perm hp hd⟩
  · exact ⟨_, microOperation_scan hp hd⟩
  · obtain ⟨h1, h10, -, hstep, -, hg, -, hfar⟩ := (sequencerInv_bfly hp).1 h
    have hg' : s.g.toNat < 2 ^ (10 - s.stage.toNat) := hstep ▸ hg
    have hj : (BitVec.ofNat 10 (s.i.toNat + s.step.toNat)).toNat = s.i.toNat + s.step.toNat :=
      Nat.mod_eq_of_lt (by omega)
    exact ⟨_, (microOperation_bfly hp).trans
      (exec_bflyStep_of_indices hp hd h1 hg' (toNat_passIndex h1 h10 hg') hj)⟩

/-- While not busy any access is answered, and then the hold or the accepted command. -/
theorem exists_step_of_not_busy (hb : s.busy = false) (hr : s.pins.reset = false) (hd : s.registersDefined = true) :
    ∃ t, step s = .next t := by
  obtain ⟨u, hacc⟩ : ∃ u, hostAccess (s.setHrdata none) = .next u := by
    cases hv : s.pins.hvalid with
    | false => exact ⟨_, hostAccess_of_no_access (s := s.setHrdata none) hv⟩
    | true =>
      rw [hostAccess_of_access (s := s.setHrdata none) hv]
      exact exists_exec_decodeHacc (s := s.setHrdata none) hb _
  cases hs : s.pins.start with
  | true => exact ⟨_, step_of_start hr hs hb hd hacc⟩
  | false => exact ⟨_, step_of_hold hr hs hb hd hacc⟩

end Sys2Proof.Machine

open Sys2Proof.Machine

/-- Settles O10: an access is refused with either start, and otherwise the micro-operation does not see the inputs. -/
theorem busyEngineIgnoresStart : Obligations.BusyEngineIgnoresStart := by
  intro s p rest b d hb hr hhost
  have hpins : s.pins = p := by rw [State.pins, hhost, List.headD_cons]
  have hreset : s.pins.reset = false := hpins ▸ hr
  have hb' : (s.withPorts s.hrdata ({ p with start := b, inverse := d } :: rest)).busy = true := hb
  cases hv : s.pins.hvalid with
  | true => exact (step_of_access_while_busy hb' hr (hpins ▸ hv)).trans (step_of_access_while_busy hb hreset hv).symm
  | false =>
    refine (step_of_busy hb' hr (hpins ▸ hv)).trans ?_
    rw [step_of_busy hb hreset hv, microOperation_withPorts hb, hhost]
    cases microOperation s <;> rfl

/-- Settles O42: reset, the step of a busy engine, and the step of an engine that is not busy. -/
theorem stepAnswersWhileHostKeepsExclusion : Obligations.StepAnswersWhileHostKeepsExclusion := by
  intro s h
  have hs := h.sequencer
  refine ⟨fun hkept => ?_, fun hbroken => ?_⟩
  · cases hr : s.pins.reset with
    | true => exact ⟨_, step_eq_next.2 (.inl ⟨hr, rfl⟩)⟩
    | false =>
      cases hb : s.busy with
      | false => exact exists_step_of_not_busy hb hr hs.registersDefined
      | true =>
        have hv : s.pins.hvalid = false := by simpa [State.hostExcluded, hr, hb] using hkept
        obtain ⟨t, ht⟩ := hs.exists_microOperation hb
        exact ⟨_, by rw [step_of_busy hb hr hv, ht, andThen_next]⟩
  · obtain ⟨hr, hb, hv⟩ : s.pins.reset = false ∧ s.busy = true ∧ s.pins.hvalid = true := by
      simpa [State.hostExcluded] using hbroken
    exact step_of_access_while_busy hb hr hv
end

section
/-! PROOFS. The transaction level (R211 to R216): the scan as an existence statement, what a transform counts in
`SCALE`, and the transform of the zero signal. -/

namespace Sys2Proof.Machine

variable {m : HalveMode} {d : Bool}

/-! ## The range scan (R211) -/

theorem rangeScan_iff {s : State} :
    rangeScan s = true ↔ ∃ c k, (s.readSample c k).toInt < -16384 ∨ 16383 < (s.readSample c k).toInt := by
  simp only [rangeScan, List.any_eq_true, List.mem_range, sample_oor_iff]
  constructor
  · rintro ⟨n, -, c, h⟩
    exact ⟨c, _, h⟩
  · rintro ⟨c, k, h⟩
    exact ⟨k.toNat, k.isLt, c, by simpa using h⟩

/-- A permutation of the samples does not change whether one of them is out of range (R146). -/
theorem rangeScan_permute {s : State} (hw : s.memWf) (hbr : s.br = bitReversalRom) :
    rangeScan (permute s) = rangeScan s := by
  rw [Bool.eq_iff_iff, rangeScan_iff, rangeScan_iff]
  simp only [readSample_permute hw hbr]
  exact exists_congr fun c => ⟨fun ⟨k, h⟩ => ⟨bitrev k, h⟩, fun ⟨k, h⟩ => ⟨bitrev k, by rwa [bitrev_bitrev]⟩⟩

/-! ## `SCALE` counts the shift stages (R212) -/

theorem length_shiftsFrom (stage : Nat) (s : State) : (shiftsFrom m d stage s).length = stage := by
  induction stage generalizing s with
  | zero => rfl
  | succ stage ih => exact congrArg Nat.succ (ih _)

theorem stageOnce_scale (stage : Nat) (s : State) :
    (stageOnce m stage d s).scale = s.scale + BitVec.ofNat 4 (rangeScan s).toNat := by
  obtain ⟨re, im, h⟩ := agreesOutsideSamples_stagePass (m := m) (stage := stage) (inv := d) (shift := rangeScan s)
    { s with shift := rangeScan s, scale := if rangeScan s then s.scale + 1#4 else s.scale }
  rw [stageOnce, h]
  cases rangeScan s <;> simp

theorem stagesFrom_scale (stage : Nat) (s : State) :
    (stagesFrom m d stage s).scale = s.scale + BitVec.ofNat 4 ((shiftsFrom m d stage s).count true) := by
  induction stage generalizing s with
  | zero => simp [stagesFrom, shiftsFrom]
  | succ stage ih =>
    have hcount : (shiftsFrom m d (stage + 1) s).count true =
        (rangeScan s).toNat + (shiftsFrom m d stage (stageOnce m (stage + 1) d s)).count true := by
      rw [shiftsFrom, List.count_cons, Nat.add_comm]
      cases rangeScan s <;> rfl
    rw [stagesFrom, ih, stageOnce_scale, hcount, BitVec.ofNat_add, BitVec.add_assoc]

theorem permute_scale (s : State) : (permute s).scale = s.scale := by
  obtain ⟨re, im, h⟩ := agreesOutsideSamples_permute s
  rw [h]

/-! ## The zero signal -/

/-- Canonical memories in which every word is 0. -/
def State.AllZero (s : State) : Prop := s.memWf ∧ ∀ c k, s.readSample c k = 0#16

theorem State.AllZero.congr {s t : State} (h : s.AllZero) (hre : t.re = s.re) (him : t.im = s.im) : t.AllZero :=
  ⟨by rw [State.memWf, hre, him]; exact h.1, fun c k => (readSample_congr hre him c k).trans (h.2 c k)⟩

theorem State.AllZero.permSwap {s : State} (h : s.AllZero) (k : Index) : (permSwap k s).AllZero := by
  obtain ⟨hw, hzero⟩ := h
  refine ⟨memWf_permSwap hw k, fun c l => ?_⟩
  simp only [readSample_permSwap hw, hzero, ite_self]

theorem State.AllZero.permute {s : State} (h : s.AllZero) : (permute s).AllZero :=
  List.foldlRecOn _ _ h fun _ hs _ _ => hs.permSwap _

/-- The product of any weight with 0 is 0 (R120). -/
theorem complexProduct_zero (wr wi : Word) : complexProduct wr wi 0#16 0#16 = (0#16, 0#16) := by
  have hzero (w : Word) : fixMpy w 0#16 = 0#16 := by rw [fixMpy_comm, fixMpy_zero_left]
  rw [complexProduct, hzero, hzero]
  rfl

theorem passThrough_zero (shift : Bool) : passThrough m shift 0#16 = 0#16 := by
  cases m <;> cases shift <;> rfl

theorem State.AllZero.run {s : State} (h : s.AllZero) {b : Butterfly} (hb : b.near ≠ b.far) (shift : Bool) :
    (b.run m shift s).AllZero := by
  obtain ⟨hw, hzero⟩ := h
  have hsum : add16 0#16 0#16 = 0#16 ∧ sub16 0#16 0#16 = 0#16 := by decide
  refine ⟨Butterfly.memWf_run hw b, fun c k => ?_⟩
  rw [Butterfly.run, readSample_bfly hw hb]
  cases c <;> simp only [hzero, complexProduct_zero, passThrough_zero, hsum, ite_self]

theorem State.AllZero.stagePass {s : State} (h : s.AllZero) (stage : Nat) (shift : Bool) :
    (stagePass m stage d shift s).AllZero := by
  have hpairs : ∀ b ∈ passButterflies m s.tw stage d shift, b.near ≠ b.far :=
    forall_mem_passButterflies.2 fun _ hg _ ht => passButterfly_near_ne_far hg ht
  rw [stagePass_eq_runAll]
  exact List.foldlRecOn _ _ h fun _ hs b hb => hs.run (hpairs b hb) shift

theorem State.AllZero.stageOnce {s : State} (h : s.AllZero) (stage : Nat) : (stageOnce m stage d s).AllZero := by
  unfold Machine.stageOnce
  generalize rangeScan s = shift
  apply State.AllZero.stagePass
  exact h.congr rfl rfl

/-- No stage shifts, and every word stays 0. -/
theorem State.AllZero.stagesFrom {s : State} (h : s.AllZero) (stage : Nat) :
    (stagesFrom m d stage s).AllZero ∧ (shiftsFrom m d stage s).count true = 0 := by
  induction stage generalizing s with
  | zero => exact ⟨h, rfl⟩
  | succ stage ih =>
    have hscan : rangeScan s = false := by
      rw [← Bool.not_eq_true, rangeScan_iff]
      rintro ⟨c, k, hk⟩
      rw [h.2 c k] at hk
      revert hk
      decide
    obtain ⟨hzero, hcount⟩ := ih (h.stageOnce (m := m) (d := d) (stage + 1))
    exact ⟨hzero, by rw [shiftsFrom, hscan, List.count_cons_of_ne (by decide), hcount]⟩

end Sys2Proof.Machine

open Sys2Proof.Machine

/-- Settles O46: the scan of stage 10 is that of the permuted input, hence that of the input. -/
theorem scanIsExistentialAndOrderFree : Obligations.ScanIsExistentialAndOrderFree := by
  refine ⟨fun _ => rangeScan_iff, fun _ => rangeScan_permute, fun s m d hw hbr hrange => ?_⟩
  have hpermute : rangeScan (permute { s with inv := d, scale := 0#4 }) = rangeScan s :=
    rangeScan_permute (s := { s with inv := d, scale := 0#4 }) hw hbr
  refine congrArg some (hpermute.trans ?_)
  rw [← Bool.not_eq_true, rangeScan_iff]
  rintro ⟨c, k, hk⟩
  obtain ⟨hmin, hmax⟩ := hrange c k
  omega

/-- Settles O47: every stage adds its scan to `SCALE`, and ten stages do not wrap the four bits. -/
theorem scaleCountsShiftStages : Obligations.ScaleCountsShiftStages := by
  intro m d s
  have hlength : (transformShifts m d s).length = 10 := length_shiftsFrom 10 _
  have hcount : (transformShifts m d s).count true ≤ 10 := hlength ▸ List.count_le_length
  have hscale : (transformWith m d s).scale = BitVec.ofNat 4 ((transformShifts m d s).count true) := by
    rw [transformWith, stages, stagesFrom_scale, permute_scale, BitVec.zero_add, transformShifts]
  exact ⟨hlength, by rw [hscale, BitVec.toNat_ofNat, Nat.mod_eq_of_lt (by omega)]⟩

/-- Settles O48: the zero signal stays zero in the permutation and in every stage, and no stage shifts. -/
theorem zeroSignalTransformsToZero : Obligations.ZeroSignalTransformsToZero := by
  intro m d s hw hzero
  have hinput : { s with inv := d, scale := 0#4 }.AllZero := State.AllZero.congr ⟨hw, hzero⟩ rfl rfl
  obtain ⟨⟨-, hresult⟩, hcount⟩ := hinput.permute.stagesFrom (m := m) (d := d) 10
  refine ⟨hresult, ?_⟩
  rw [transformWith, stages, stagesFrom_scale, permute_scale, hcount]
  rfl
end

section
/-! PROOFS. A transform reads the samples, the ROMs and the registers it writes first, and nothing else (R216, R236): to
set all other fields before an operation of the transaction level or after it is the same. -/

namespace Sys2Proof.Machine

/-- The fields a transform does not depend on: `SHIFT`, which every stage writes before it is read, the sequencer
position, the ports, and `HALVE_MODE`, which the transaction level takes as a parameter. -/
structure Control where
  /-- `SHIFT` (R26). -/
  shift : Bool
  /-- `PHASE` (R28). -/
  phase : Phase
  /-- `IDX` (R29). -/
  idx : Index
  /-- `STAGE` (R29). -/
  stage : BitVec 4
  /-- `STEP` (R29). -/
  step : BitVec 11
  /-- `G` (R29). -/
  g : Index
  /-- `I` (R29). -/
  i : Index
  /-- The read data. -/
  hrdata : Option Word
  /-- The inputs. -/
  host : List HostInput
  /-- `HALVE_MODE`. -/
  halveMode : HalveMode

/-- These fields of a state. -/
def State.control (s : State) : Control :=
  ⟨s.shift, s.phase, s.idx, s.stage, s.step, s.g, s.i, s.hrdata, s.host, s.halveMode⟩

/-- The state with these fields set. -/
def State.withControl (c : Control) (s : State) : State :=
  { s with
    shift := c.shift, phase := c.phase, idx := c.idx, stage := c.stage, step := c.step, g := c.g, i := c.i,
    hrdata := c.hrdata, host := c.host, halveMode := c.halveMode }

@[simp] theorem readSample_withControl (c : Control) (s : State) (ch : Channel) (k : Index) :
    (s.withControl c).readSample ch k = s.readSample ch k := readSample_congr rfl rfl ch k

@[simp] theorem withControl_re (c : Control) (s : State) : (s.withControl c).re = s.re := rfl
@[simp] theorem withControl_im (c : Control) (s : State) : (s.withControl c).im = s.im := rfl
@[simp] theorem withControl_scale (c : Control) (s : State) : (s.withControl c).scale = s.scale := rfl

/-- To set these fields before `f` or after it is the same: `f` neither reads nor writes them. -/
def ControlFree (f : State → State) : Prop := ∀ (c : Control) (s : State), f (s.withControl c) = (f s).withControl c

variable {m : HalveMode} {stage : Nat} {inv shift : Bool}

theorem controlFree_permSwap (k : Index) : ControlFree (permSwap k) := by
  intro c s
  unfold permSwap State.withControl
  dsimp only
  split_ifs <;> rfl

theorem controlFree_permute : ControlFree permute := fun c _ =>
  List.foldl_hom (State.withControl c) fun u k => controlFree_permSwap (BitVec.ofNat 10 k) c u

theorem controlFree_run (b : Butterfly) : ControlFree (b.run m shift) := fun _ _ => rfl

theorem controlFree_stagePass : ControlFree (stagePass m stage inv shift) := by
  intro c s
  rw [stagePass_eq_runAll, stagePass_eq_runAll]
  exact List.foldl_hom (State.withControl c) fun u b => controlFree_run b c u

theorem rangeScan_withControl (c : Control) (s : State) : rangeScan (s.withControl c) = rangeScan s := rfl

theorem stageOnce_withControl (c : Control) (s : State) :
    stageOnce m stage inv (s.withControl c) =
      (stageOnce m stage inv s).withControl { c with shift := rangeScan s } := by
  unfold stageOnce
  rw [rangeScan_withControl]
  generalize rangeScan s = shift
  exact controlFree_stagePass { c with shift := shift }
    { s with shift := shift, scale := if shift then s.scale + 1#4 else s.scale }

theorem stagesFrom_withControl (c : Control) (s : State) :
    ∃ c', stagesFrom m inv stage (s.withControl c) = (stagesFrom m inv stage s).withControl c' := by
  induction stage generalizing c s with
  | zero => exact ⟨c, rfl⟩
  | succ stage ih =>
    rw [stagesFrom, stageOnce_withControl]
    exact ih _ _

/-- The state a transform begins with: `INV` and `SCALE` are written before anything is read (R216). -/
def State.armed (d : Bool) (s : State) : State := { s with inv := d, scale := 0#4 }

theorem transformWith_eq_stagesFrom (s : State) :
    transformWith m inv s = stagesFrom m inv 10 (permute (s.armed inv)) := rfl

theorem stagesFrom_permute_withControl (c : Control) (s : State) :
    ∃ c', stagesFrom m inv stage (permute (s.withControl c)) = (stagesFrom m inv stage (permute s)).withControl c' := by
  rw [controlFree_permute]
  exact stagesFrom_withControl c _

end Sys2Proof.Machine

open Sys2Proof.Machine

/-- Settles O51: equal reads of canonical memories are equal memories; `INV` and `SCALE` are written first, and the
other fields are not read. -/
theorem transformDependsOnSamplesOnly : Obligations.TransformDependsOnSamplesOnly := by
  intro m d s s' hw hw' hsamples hroms
  have hre : s'.re = s.re := Memory.eq_of_read_eq hw'.1 hw.1 (hsamples .re)
  have him : s'.im = s.im := Memory.eq_of_read_eq hw'.2 hw.2 (hsamples .im)
  obtain ⟨htw, hbr⟩ := hroms
  have hinput : s'.armed d = (s.armed d).withControl s'.control := by
    simp only [State.armed, State.withControl, State.control, hre, him, htw, hbr]
  obtain ⟨c, h⟩ := stagesFrom_permute_withControl (m := m) (inv := d) (stage := 10) s'.control (s.armed d)
  rw [transformWith_eq_stagesFrom, transformWith_eq_stagesFrom, hinput, h]
  exact ⟨readSample_withControl c _, withControl_scale c _⟩
end

section
/-! PROOFS. A busy run: micro-operations one after another, each in a busy state (R220). What the host presents beside
it does not matter while it neither resets nor accesses (R233), so the run can be followed without the ports. -/

namespace Sys2Proof.Machine

/-- `n` micro-operations lead from the first state to the second, and each begins in a busy state. -/
inductive BusyRun : Nat → State → State → Prop
  | refl (s : State) : BusyRun 0 s s
  | head {n : Nat} {s t u : State} (hb : s.busy = true) (hstep : microOperation s = .next t) (h : BusyRun n t u) :
      BusyRun (n + 1) s u

theorem undisturbing_iff {p : HostInput} : p.undisturbing = true ↔ p.reset = false ∧ p.hvalid = false := by
  simp [HostInput.undisturbing]

namespace BusyRun

variable {n k : Nat} {s t u : State}

theorem single (hb : s.busy = true) (hstep : microOperation s = .next t) : BusyRun 1 s t := .head hb hstep (.refl t)

theorem trans (h : BusyRun n s t) (h' : BusyRun k t u) : BusyRun (n + k) s u := by
  induction h with
  | refl => rwa [Nat.zero_add]
  | head hb hstep _ ih =>
    rw [Nat.add_right_comm]
    exact .head hb hstep (ih h')

/-- Every state before the last is reached by a shorter run, and is busy. -/
theorem exists_of_lt (h : BusyRun n s t) (hk : k < n) : ∃ u, BusyRun k s u ∧ u.busy = true := by
  induction h generalizing k with
  | refl => exact absurd hk (Nat.not_lt_zero k)
  | head hb hstep _ ih =>
    cases k with
    | zero => exact ⟨_, .refl _, hb⟩
    | succ k =>
      obtain ⟨u, hrun, hu⟩ := ih (Nat.lt_of_succ_lt_succ hk)
      exact ⟨u, .head hb hstep hrun, hu⟩

theorem sequencerInv (h : BusyRun n s t) (hs : SequencerInv s) : SequencerInv t := by
  induction h with
  | refl => exact hs
  | head _ hstep _ ih =>
    obtain ⟨i, hi⟩ := exec_of_runWord hstep
    exact ih ((execEffect_of_exec hi).sequencerInv hs)

/-- `n` runs of `k` micro-operations, through the states `σ 0` to `σ n`. -/
theorem loop {σ : Nat → State} (hs : SequencerInv (σ 0))
    (h : ∀ j < n, SequencerInv (σ j) → BusyRun k (σ j) (σ (j + 1))) : BusyRun (n * k) (σ 0) (σ n) := by
  induction n with
  | zero => rw [Nat.zero_mul]; exact .refl _
  | succ n ih =>
    have hfirst := ih fun j hj => h j (Nat.lt_succ_of_lt hj)
    rw [Nat.succ_mul]
    exact hfirst.trans (h n (Nat.lt_succ_self n) (hfirst.sequencerInv hs))

/-- The same for single micro-operations. -/
theorem steps {σ : Nat → State} (hs : SequencerInv (σ 0))
    (h : ∀ j < n, SequencerInv (σ j) → (σ j).busy = true ∧ microOperation (σ j) = .next (σ (j + 1))) :
    BusyRun n (σ 0) (σ n) := by
  have hloop : BusyRun (n * 1) (σ 0) (σ n) := loop hs fun j hj hs => .single (h j hj hs).1 (h j hj hs).2
  rwa [Nat.mul_one] at hloop

/-! ## The run among the host's inputs -/

theorem undisturbing_tail {ins : List HostInput} (h : ∀ q ∈ ins.take (n + 1), q.undisturbing = true) :
    (ins.headD HostInput.quiet).undisturbing = true ∧ ∀ q ∈ ins.tail.take n, q.undisturbing = true := by
  cases ins with
  | nil => exact ⟨rfl, by simp⟩
  | cons p ins => simpa using h

theorem core_run (h : BusyRun n s t) {ins : List HostInput} (hins : ∀ q ∈ ins.take n, q.undisturbing = true) :
    Sys2Proof.core.run n (s.withPorts none ins) = .next (t.withPorts none (ins.drop n)) := by
  induction h generalizing ins with
  | refl => rfl
  | @head n s t u hb hstep _ ih =>
    obtain ⟨hhead, htail⟩ := undisturbing_tail hins
    obtain ⟨hr, hv⟩ : (s.withPorts none ins).pins.reset = false ∧ (s.withPorts none ins).pins.hvalid = false :=
      undisturbing_iff.1 hhead
    have hfirst : step (s.withPorts none ins) = .next (t.withPorts none ins.tail) := by
      rw [step_of_busy (s := s.withPorts none ins) hb hr hv, microOperation_withPorts hb, hstep]
      rfl
    rw [run_succ_of_step (M := Sys2Proof.core) hfirst, ih htail, List.drop_tail]

end BusyRun
end Sys2Proof.Machine
end

section
/-! PROOFS. The advance of the counters from one position of a transform to the next (R224 to R226). A state of the run
is written as a state of the transaction level with the sequencer at a position. -/

namespace Sys2Proof.Machine

/-! ## The positions of the sequencer in a transform (R30, R36) -/

namespace Control

variable (c : Control) (stage : Nat) (shift : Bool)

/-- Before the swap at index `k`. -/
def atPerm (k : Index) : Control :=
  { c with phase := .perm, idx := k, stage := 10#4, step := 1#11, g := 0#10, i := 0#10, shift := false }

/-- Before the scan of index `k` in a stage, with the shift decision so far. -/
def atScan (k : Index) : Control :=
  { c with
    phase := .scan, idx := k, stage := BitVec.ofNat 4 stage, step := BitVec.ofNat 11 (stepOfStage stage),
    g := 0#10, i := 0#10, shift := shift }

/-- Before the butterfly of group `g` with near index `i`. -/
def atNear (g i : Index) : Control :=
  { c with
    phase := .bfly, idx := 0#10, stage := BitVec.ofNat 4 stage, step := BitVec.ofNat 11 (stepOfStage stage),
    g := g, i := i, shift := shift }

/-- After the transform; `SHIFT` is that of the last stage. -/
def atDone : Control :=
  { c with phase := .done, idx := 0#10, stage := 0#4, step := 1024#11, g := 0#10, i := 0#10, shift := shift }

/-- Where a stage begins. There is no stage 0: the transform is over. -/
def atStage : Nat → Control
  | 0 => c.atDone shift
  | stage + 1 => c.atScan (stage + 1) false 0#10

/-- Where group `g` of a stage begins; after the last group, where the next stage does. -/
def atGroup (g : Nat) : Control :=
  if g < stepOfStage stage then c.atNear stage shift (BitVec.ofNat 10 g) (BitVec.ofNat 10 g)
  else c.atStage shift (stage - 1)

/-- Before butterfly `t` of group `g`; after the last butterfly, where the next group begins. -/
def atButterfly (g t : Nat) : Control :=
  if t < 512 / stepOfStage stage then c.atNear stage shift (BitVec.ofNat 10 g) (nearIndex (stepOfStage stage) g t)
  else c.atGroup stage shift (g + 1)

variable {stage} {g : Nat}

theorem atGroup_of_lt (hg : g < stepOfStage stage) :
    c.atGroup stage shift g = c.atNear stage shift (BitVec.ofNat 10 g) (BitVec.ofNat 10 g) := if_pos hg

theorem atGroup_last : c.atGroup stage shift (stepOfStage stage) = c.atStage shift (stage - 1) :=
  if_neg (Nat.lt_irrefl _)

theorem atButterfly_of_lt {t : Nat} (ht : t < 512 / stepOfStage stage) :
    c.atButterfly stage shift g t =
      c.atNear stage shift (BitVec.ofNat 10 g) (nearIndex (stepOfStage stage) g t) := if_pos ht

theorem atButterfly_last :
    c.atButterfly stage shift g (512 / stepOfStage stage) = c.atGroup stage shift (g + 1) :=
  if_neg (Nat.lt_irrefl _)

/-- A group begins with its butterfly 0. -/
theorem atButterfly_zero (hg : g < stepOfStage stage) (hpos : 0 < 512 / stepOfStage stage) :
    c.atButterfly stage shift g 0 = c.atGroup stage shift g := by
  rw [atButterfly_of_lt c shift hpos, atGroup_of_lt c shift hg, nearIndex, Nat.mul_zero, Nat.add_zero]

end Control

variable {c : Control} {u : State} {stage g t : Nat} {shift : Bool}

theorem ofNat_index_succ (k : Nat) : BitVec.ofNat 10 (k + 1) = BitVec.ofNat 10 k + 1#10 := BitVec.ofNat_add k 1

theorem toNat_ofNat_index {k : Nat} (hk : k < 1024) : (BitVec.ofNat 10 k).toNat = k := Nat.mod_eq_of_lt hk

/-! ## The permutation and the scan (R224, R225) -/

theorem permAdvance_atPerm {k : Index} (hk : k.toNat < 1023) :
    permAdvance (u.withControl (c.atPerm k)) = u.withControl (c.atPerm (k + 1#10)) := permAdvance_of_lt hk

theorem permAdvance_atPerm_last : permAdvance (u.withControl (c.atPerm 1023#10)) = u.withControl (c.atStage false 10) :=
  permAdvance_of_last rfl

theorem scanAdvance_atScan {k : Index} (hk : k.toNat < 1023) :
    scanAdvance (u.withControl (c.atScan stage shift k)) =
      u.withControl (c.atScan stage (u.withControl (c.atScan stage shift k)).scannedShift (k + 1#10)) :=
  scanAdvance_of_lt hk

/-- The count of a stage in `SHIFT` and `SCALE` at the end of its scan (R212). -/
def State.countShift (shift : Bool) (s : State) : State :=
  { s with shift := shift, scale := if shift then s.scale + 1#4 else s.scale }

theorem scanAdvance_atScan_last {sh : Bool} (hsh : (u.withControl (c.atScan stage shift 1023#10)).scannedShift = sh) :
    scanAdvance (u.withControl (c.atScan stage shift 1023#10)) =
      (u.countShift sh).withControl (c.atGroup stage sh 0) := by
  rw [scanAdvance_of_last rfl, hsh, Control.atGroup_of_lt c sh (Nat.two_pow_pos _)]
  rfl

/-! ## The butterfly pass (R226) -/

theorem stepOfStage_bounds (h1 : 1 ≤ stage) : 1 ≤ stepOfStage stage ∧ stepOfStage stage ≤ 512 := two_pow_sub_bounds h1

theorem step_atNear (h1 : 1 ≤ stage) (g i : Index) :
    (u.withControl (c.atNear stage shift g i)).step.toNat = stepOfStage stage :=
  Nat.mod_eq_of_lt ((stepOfStage_bounds h1).2.trans_lt (by decide))

theorem stage_atNear (h10 : stage ≤ 10) (g i : Index) :
    (u.withControl (c.atNear stage shift g i)).stage.toNat = stage :=
  Nat.mod_eq_of_lt (show stage < 2 ^ 4 by omega)

/-- The groups of a stage share its 512 butterflies evenly. -/
theorem stepOfStage_mul_groupSize (h1 : 1 ≤ stage) (h10 : stage ≤ 10) :
    stepOfStage stage * (512 / stepOfStage stage) = 512 :=
  Nat.mul_div_cancel' (Dvd.intro _ (stepOfStage_mul_stride h1 h10))

theorem bflyAdvance_atNear_next (h1 : 1 ≤ stage) {g i : Index} (hi : i.toNat + 2 * stepOfStage stage < 1024) :
    bflyAdvance (u.withControl (c.atNear stage shift g i)) =
      u.withControl (c.atNear stage shift g (BitVec.ofNat 10 (i.toNat + 2 * stepOfStage stage))) := by
  have hstep := step_atNear (c := c) (u := u) (shift := shift) h1 g i
  rw [bflyAdvance_of_next (by rwa [hstep]), hstep]
  rfl

theorem bflyAdvance_atNear_group (h1 : 1 ≤ stage) {g i : Index} (hi : 1024 ≤ i.toNat + 2 * stepOfStage stage)
    (hg : g.toNat + 1 < stepOfStage stage) :
    bflyAdvance (u.withControl (c.atNear stage shift g i)) =
      u.withControl (c.atNear stage shift (g + 1#10) (g + 1#10)) := by
  have hstep := step_atNear (c := c) (u := u) (shift := shift) h1 g i
  exact bflyAdvance_of_group (by rwa [hstep]) (by rwa [hstep])

theorem ofNat_stage_sub_one (n : Nat) : BitVec.ofNat 4 (n + 1) - 1#4 = BitVec.ofNat 4 n :=
  (congrArg (· - 1#4) (BitVec.ofNat_add n 1)).trans (BitVec.add_sub_cancel _ _)

theorem bflyAdvance_atNear_stage (h1 : 1 ≤ stage) (h10 : stage ≤ 10) {g i : Index}
    (hi : 1024 ≤ i.toNat + 2 * stepOfStage stage) (hg : stepOfStage stage ≤ g.toNat + 1) :
    bflyAdvance (u.withControl (c.atNear stage shift g i)) = u.withControl (c.atStage shift (stage - 1)) := by
  have hstep := step_atNear (c := c) (u := u) (shift := shift) h1 g i
  obtain ⟨n, rfl⟩ : ∃ n, stage = n + 1 := ⟨stage - 1, by omega⟩
  cases n with
  | zero => exact bflyAdvance_of_done (by rwa [hstep]) (by rwa [hstep]) rfl
  | succ n =>
    have hstage : BitVec.ofNat 4 (n + 1 + 1) ≠ 1#4 := fun h => by
      have hval : (n + 1 + 1) % 16 = 1 := congrArg BitVec.toNat h
      omega
    have hpred : (u.withControl (c.atNear (n + 1 + 1) shift g i)).stage - 1#4 = BitVec.ofNat 4 (n + 1) :=
      ofNat_stage_sub_one (n + 1)
    have hdouble : 2 * stepOfStage (n + 1 + 1) = stepOfStage (n + 1) := (two_pow_sub_pred h1 h10).symm
    rw [bflyAdvance_of_stage (by rwa [hstep]) (by rwa [hstep]) hstage, hstep, hdouble, hpred]
    rfl

/-- After a butterfly the sequencer stands before the next one, wherever that is. -/
theorem bflyAdvance_atButterfly (h1 : 1 ≤ stage) (h10 : stage ≤ 10) (hg : g < stepOfStage stage)
    (ht : t < 512 / stepOfStage stage) :
    bflyAdvance (u.withControl (c.atButterfly stage shift g t)) =
      u.withControl (c.atButterfly stage shift g (t + 1)) := by
  have hnear := toNat_nearIndex hg ht
  have hsum : (nearIndex (stepOfStage stage) g t).toNat + 2 * stepOfStage stage =
      g + 2 * stepOfStage stage * (t + 1) := by rw [hnear]; ring
  rw [Control.atButterfly_of_lt c shift ht]
  obtain hnext | hend : t + 1 < 512 / stepOfStage stage ∨ t + 1 = 512 / stepOfStage stage := by omega
  · have hfar := near_add_step_le hg hnext
    rw [bflyAdvance_atNear_next h1 (by omega), hsum, Control.atButterfly_of_lt c shift hnext]
    rfl
  · rw [hend, mul_assoc, stepOfStage_mul_groupSize h1 h10] at hsum
    have h512 := (stepOfStage_bounds h1).2
    have hgroup : (BitVec.ofNat 10 g).toNat = g := toNat_ofNat_index (by omega)
    rw [hend, Control.atButterfly_last]
    obtain hlt | hlast : g + 1 < stepOfStage stage ∨ g + 1 = stepOfStage stage := by omega
    · rw [bflyAdvance_atNear_group h1 (by omega) (by omega), Control.atGroup_of_lt c shift hlt, ofNat_index_succ g]
    · rw [bflyAdvance_atNear_stage h1 h10 (by omega) (by omega), hlast, Control.atGroup_last]

end Sys2Proof.Machine
end

section
/-! PROOFS. The micro-steps of a transform are the operations of the transaction level in their order, and 16384 of them
follow the accepted `START` (R216, R220, R229). Each loop of the transaction level is a loop of positions. -/

namespace Sys2Proof.Machine

variable {c : Control} {u : State} {stage g : Nat} {shift d : Bool}

/-! ## The permutation (R144) -/

theorem microOperation_atPerm {k : Index} (hs : SequencerInv (u.withControl (c.atPerm k))) :
    microOperation (u.withControl (c.atPerm k)) = .next (permAdvance ((permSwap k u).withControl (c.atPerm k))) := by
  rw [← controlFree_permSwap]
  exact microOperation_perm rfl hs.registersDefined

theorem swapsBelow_ofNat_succ {k : Nat} (hk : k < 1024) (s : State) :
    swapsBelow (k + 1) s = permSwap (BitVec.ofNat 10 k) (swapsBelow k s) := by
  simpa only [toNat_ofNat_index hk] using swapsBelow_succ (BitVec.ofNat 10 k) s

theorem busyRun_swapsBelow (hs : SequencerInv (u.withControl (c.atPerm 0#10))) :
    BusyRun 1023 (u.withControl (c.atPerm 0#10)) ((swapsBelow 1023 u).withControl (c.atPerm 1023#10)) := by
  refine BusyRun.steps (n := 1023) (σ := fun k => (swapsBelow k u).withControl (c.atPerm (BitVec.ofNat 10 k))) hs
    fun k hk hs => ⟨rfl, (microOperation_atPerm hs).trans (congrArg Host.Outcome.next ?_)⟩
  have hidx : (BitVec.ofNat 10 k).toNat = k := toNat_ofNat_index (by omega)
  rw [permAdvance_atPerm (hidx.trans_lt hk), swapsBelow_ofNat_succ (by omega), ofNat_index_succ k]

theorem busyRun_permute (hs : SequencerInv (u.withControl (c.atPerm 0#10))) :
    BusyRun 1024 (u.withControl (c.atPerm 0#10)) ((permute u).withControl (c.atStage false 10)) := by
  have hbelow := busyRun_swapsBelow hs
  refine hbelow.trans (.single rfl
    ((microOperation_atPerm (hbelow.sequencerInv hs)).trans (congrArg Host.Outcome.next ?_)))
  rw [permAdvance_atPerm_last, permute_eq_swapsBelow, swapsBelow_ofNat_succ (k := 1023) (by decide)]

/-! ## The scan of a stage (R211) -/

/-- `RANGE.SCAN` of the samples below index `n`. -/
def scanBelow (n : Nat) (s : State) : Bool :=
  (List.range n).any fun k => oor (s.readSample .re (BitVec.ofNat 10 k)) || oor (s.readSample .im (BitVec.ofNat 10 k))

theorem rangeScan_eq_scanBelow (s : State) : rangeScan s = scanBelow 1024 s := rfl

theorem scannedShift_atScan (k : Nat) :
    (u.withControl (c.atScan stage (scanBelow k u) (BitVec.ofNat 10 k))).scannedShift = scanBelow (k + 1) u := by
  rw [scannedShift_eq_or, scanBelow, scanBelow, List.range_succ, List.any_append, List.any_cons, List.any_nil,
    Bool.or_false]
  rfl

theorem busyRun_scanBelow (hs : SequencerInv (u.withControl (c.atScan stage false 0#10))) :
    BusyRun 1023 (u.withControl (c.atScan stage false 0#10))
      (u.withControl (c.atScan stage (scanBelow 1023 u) 1023#10)) := by
  refine BusyRun.steps (n := 1023)
    (σ := fun k => u.withControl (c.atScan stage (scanBelow k u) (BitVec.ofNat 10 k))) hs
    fun k hk hs => ⟨rfl, (microOperation_scan rfl hs.registersDefined).trans (congrArg Host.Outcome.next ?_)⟩
  have hidx : (BitVec.ofNat 10 k).toNat = k := toNat_ofNat_index (by omega)
  rw [scanAdvance_atScan (hidx.trans_lt hk), scannedShift_atScan, ofNat_index_succ k]

theorem busyRun_scan (hs : SequencerInv (u.withControl (c.atScan stage false 0#10))) :
    BusyRun 1024 (u.withControl (c.atScan stage false 0#10))
      ((u.countShift (rangeScan u)).withControl (c.atGroup stage (rangeScan u) 0)) := by
  have hbelow := busyRun_scanBelow hs
  refine hbelow.trans (.single rfl
    ((microOperation_scan rfl (hbelow.sequencerInv hs).registersDefined).trans (congrArg Host.Outcome.next ?_)))
  rw [rangeScan_eq_scanBelow]
  exact scanAdvance_atScan_last (scannedShift_atScan 1023)

/-! ## The butterfly pass of a stage (R183) -/

theorem State.AgreesOutsideSamples.inv_eq {s t : State} (h : s.AgreesOutsideSamples t) : t.inv = s.inv := by
  obtain ⟨re, im, rfl⟩ := h
  rfl

/-- The first `t` butterflies of a group. -/
def butterfliesBelow (m : HalveMode) (stage : Nat) (inv shift : Bool) (g t : Nat) (s : State) : State :=
  Butterfly.runAll m shift ((List.range t).map (passButterfly m s.tw stage inv shift g)) s

/-- The first `g` groups of a stage. -/
def groupsBelow (m : HalveMode) (stage : Nat) (inv shift : Bool) (g : Nat) (s : State) : State :=
  (List.range g).foldl (fun u g => groupPass m stage inv shift g u) s

variable {m : HalveMode} {inv : Bool}

theorem butterfliesBelow_succ (t : Nat) (s : State) :
    butterfliesBelow m stage inv shift g (t + 1) s =
      (passButterfly m s.tw stage inv shift g t).run m shift (butterfliesBelow m stage inv shift g t s) := by
  rw [butterfliesBelow, List.range_succ, List.map_append, Butterfly.runAll, List.foldl_append]
  rfl

theorem agreesOutsideSamples_butterfliesBelow (t : Nat) (s : State) :
    s.AgreesOutsideSamples (butterfliesBelow m stage inv shift g t s) := Butterfly.agreesOutsideSamples_runAll _ s

theorem groupPass_eq_butterfliesBelow (s : State) :
    groupPass m stage inv shift g s = butterfliesBelow m stage inv shift g (512 / stepOfStage stage) s :=
  groupPass_eq_runAll g s

theorem groupsBelow_succ (g : Nat) (s : State) :
    groupsBelow m stage inv shift (g + 1) s = groupPass m stage inv shift g (groupsBelow m stage inv shift g s) := by
  rw [groupsBelow, List.range_succ, List.foldl_concat, groupsBelow]

theorem agreesOutsideSamples_groupsBelow (g : Nat) (s : State) :
    s.AgreesOutsideSamples (groupsBelow m stage inv shift g s) :=
  List.foldlRecOn _ _ (.refl s) fun u h g _ => h.trans
    (groupPass_eq_runAll (m := m) (stage := stage) (inv := inv) (shift := shift) g u ▸
      Butterfly.agreesOutsideSamples_runAll _ u)

/-- The butterfly of the position, with the weights of its group (R181, R182). -/
theorem microOperation_atButterfly {t : Nat} (h1 : 1 ≤ stage) (h10 : stage ≤ 10) (hg : g < stepOfStage stage)
    (ht : t < 512 / stepOfStage stage) (hs : SequencerInv (u.withControl (c.atButterfly stage shift g t))) :
    microOperation (u.withControl (c.atButterfly stage shift g t)) =
      .next (((passButterfly c.halveMode u.tw stage u.inv shift g t).run c.halveMode shift u).withControl
        (c.atButterfly stage shift g (t + 1))) := by
  have hadvance := bflyAdvance_atButterfly (c := c) (shift := shift)
    (u := (passButterfly c.halveMode u.tw stage u.inv shift g t).run c.halveMode shift u) h1 h10 hg ht
  rw [← hadvance]
  rw [Control.atButterfly_of_lt c shift ht] at hs ⊢
  have h512 := (stepOfStage_bounds h1).2
  have hgroup : (BitVec.ofNat 10 g).toNat = g := toNat_ofNat_index (by omega)
  refine (microOperation_bfly rfl).trans
    (exec_bflyStep_of_indices (jp := passIndex stage g) (j := passFarIndex (stepOfStage stage) g t) rfl
      hs.registersDefined ?_ ?_ ?_ ?_)
  · rwa [stage_atNear h10]
  · rw [stage_atNear h10]
    exact hgroup.trans_lt hg
  · rw [stage_atNear h10]
    exact (toNat_passIndex h1 h10 hg).trans (congrArg (· * 2 ^ (stage - 1)) hgroup.symm)
  · rw [step_atNear h1]
    exact (toNat_passFarIndex hg ht).trans (congrArg (· + stepOfStage stage) (toNat_nearIndex hg ht).symm)

theorem busyRun_group (h1 : 1 ≤ stage) (h10 : stage ≤ 10) (hg : g < stepOfStage stage)
    (hs : SequencerInv (u.withControl (c.atGroup stage shift g))) :
    BusyRun (512 / stepOfStage stage) (u.withControl (c.atGroup stage shift g))
      ((groupPass c.halveMode stage u.inv shift g u).withControl (c.atGroup stage shift (g + 1))) := by
  obtain ⟨hpos, h512⟩ := stepOfStage_bounds h1
  have hfirst := Control.atButterfly_zero c shift hg (Nat.div_pos h512 hpos)
  rw [groupPass_eq_butterfliesBelow, ← Control.atButterfly_last, ← hfirst]
  refine BusyRun.steps (σ := fun t =>
    (butterfliesBelow c.halveMode stage u.inv shift g t u).withControl (c.atButterfly stage shift g t))
    (hfirst.symm ▸ hs) fun t ht hs => ⟨?_, ?_⟩
  · rw [Control.atButterfly_of_lt c shift ht]
    rfl
  · have hagree := agreesOutsideSamples_butterfliesBelow (m := c.halveMode) (stage := stage) (inv := u.inv)
      (shift := shift) (g := g) t u
    rw [butterfliesBelow_succ, microOperation_atButterfly h1 h10 hg ht hs, hagree.tw_eq, hagree.inv_eq]

theorem busyRun_pass (h1 : 1 ≤ stage) (h10 : stage ≤ 10)
    (hs : SequencerInv (u.withControl (c.atGroup stage shift 0))) :
    BusyRun 512 (u.withControl (c.atGroup stage shift 0))
      ((stagePass c.halveMode stage u.inv shift u).withControl (c.atStage shift (stage - 1))) := by
  rw [← Control.atGroup_last, ← stepOfStage_mul_groupSize h1 h10]
  refine BusyRun.loop (σ := fun g =>
    (groupsBelow c.halveMode stage u.inv shift g u).withControl (c.atGroup stage shift g)) hs fun g hg hs => ?_
  have hinv := (agreesOutsideSamples_groupsBelow (m := c.halveMode) (stage := stage) (inv := u.inv)
    (shift := shift) g u).inv_eq
  have hgroup := busyRun_group h1 h10 hg hs
  rwa [hinv, ← groupsBelow_succ] at hgroup

/-! ## The stages (R213) -/

theorem stageOnce_eq (s : State) :
    stageOnce m stage inv s = stagePass m stage inv (rangeScan s) (s.countShift (rangeScan s)) := rfl

theorem busyRun_stage (h1 : 1 ≤ stage) (h10 : stage ≤ 10) (hs : SequencerInv (u.withControl (c.atStage shift stage))) :
    BusyRun 1536 (u.withControl (c.atStage shift stage))
      ((stageOnce c.halveMode stage u.inv u).withControl (c.atStage (rangeScan u) (stage - 1))) := by
  obtain ⟨n, rfl⟩ : ∃ n, stage = n + 1 := ⟨stage - 1, by omega⟩
  have hscan := busyRun_scan hs
  rw [stageOnce_eq]
  generalize rangeScan u = shift at hscan ⊢
  exact hscan.trans (busyRun_pass h1 h10 (hscan.sequencerInv hs))

theorem stageOnce_inv (s : State) : (stageOnce m stage inv s).inv = s.inv := by
  rw [stageOnce_eq]
  generalize rangeScan s = shift
  exact (agreesOutsideSamples_stagePass _).inv_eq

theorem busyRun_stages (h10 : stage ≤ 10) (hs : SequencerInv (u.withControl (c.atStage shift stage))) :
    ∃ last, BusyRun (stage * 1536) (u.withControl (c.atStage shift stage))
      ((stagesFrom c.halveMode u.inv stage u).withControl (c.atDone last)) := by
  induction stage generalizing u shift with
  | zero => exact ⟨shift, .refl _⟩
  | succ stage ih =>
    have hstage := busyRun_stage (Nat.succ_pos stage) h10 hs
    obtain ⟨last, hrest⟩ := ih (Nat.le_of_succ_le h10) (hstage.sequencerInv hs)
    rw [stageOnce_inv] at hrest
    exact ⟨last, by rw [Nat.succ_mul, Nat.add_comm]; exact hstage.trans hrest⟩

/-! ## The whole transform (R216) -/

theorem permute_inv (s : State) : (permute s).inv = s.inv := (agreesOutsideSamples_permute s).inv_eq

/-- The state after `START`, as the state the transaction level begins with (R222). -/
theorem startTransform_eq_armed (s : State) :
    s.startTransform d = (s.armed d).withControl (s.control.atPerm 0#10) := rfl

/-- After `START` the engine is busy for 16384 micro-operations, and they compute the transform. -/
theorem busyRun_transform (s : State) :
    ∃ last, BusyRun 16384 (s.startTransform d) ((transform d s).withControl (s.control.atDone last)) := by
  have hs := sequencerInv_startTransform d s
  rw [startTransform_eq_armed] at hs ⊢
  have hperm := busyRun_permute hs
  obtain ⟨last, hstages⟩ := busyRun_stages le_rfl (hperm.sequencerInv hs)
  rw [permute_inv] at hstages
  exact ⟨last, hperm.trans hstages⟩

/-- An accepted `START` without reset or access, and `n` micro-steps of the run after it. -/
theorem core_run_of_start {s t : State} {p : HostInput} {ps : List HostInput} {n : Nat} (hb : s.busy = false)
    (hd : s.registersDefined = true) (hhost : s.host = p :: ps) (hstart : p.start = true) (hp : p.undisturbing = true)
    (hps : ∀ q ∈ ps.take n, q.undisturbing = true) (hrun : BusyRun n (s.startTransform p.inverse) t) :
    Sys2Proof.core.run (n + 1) s = .next (t.withPorts none (ps.drop n)) := by
  have hpins : s.pins = p := by rw [State.pins, hhost, List.headD_cons]
  obtain rfl : ps = s.host.tail := by rw [hhost, List.tail_cons]
  obtain ⟨hr, hv⟩ := undisturbing_iff.1 hp
  rw [← hpins] at hr hv hstart
  have hfirst : step s = .next ((s.startTransform p.inverse).withPorts none s.host.tail) := by
    rw [step_of_start hr hstart hb hd (hostAccess_of_no_access (s := s.setHrdata none) hv), hpins]
    rfl
  rw [run_succ_of_step (M := Sys2Proof.core) hfirst]
  exact hrun.core_run hps

theorem withControl_withPorts (c : Control) (hrdata : Option Word) (host : List HostInput) (s : State) :
    (s.withControl c).withPorts hrdata host = s.withControl { c with hrdata := hrdata, host := host } := rfl

/-- 16385 micro-steps from an accepted `START` lead to the result of the transform, in phase `DONE`. -/
theorem core_run_transform {s : State} {p : HostInput} {ps : List HostInput} (hb : s.busy = false)
    (hd : s.registersDefined = true) (hhost : s.host = p :: ps) (hstart : p.start = true) (hp : p.undisturbing = true)
    (hps : ∀ q ∈ ps.take 16384, q.undisturbing = true) :
    ∃ c : Control, c.phase = .done ∧
      Sys2Proof.core.run 16385 s = .next ((transform p.inverse s).withControl c) := by
  obtain ⟨last, hrun⟩ := busyRun_transform (d := p.inverse) s
  have hresult := core_run_of_start hb hd hhost hstart hp hps hrun
  rw [withControl_withPorts] at hresult
  exact ⟨_, rfl, hresult⟩

end Sys2Proof.Machine

open Sys2Proof.Machine

/-- Settles O52: `START`, then the busy run that computes the transform. -/
theorem microStepsComputeTransform : Obligations.MicroStepsComputeTransform := by
  intro s p ps hb hd hhost hstart hp hps
  obtain ⟨c, hdone, hrun⟩ := core_run_transform hb hd hhost hstart hp hps
  exact ⟨_, hrun, hdone, withControl_re .., withControl_im .., withControl_scale ..⟩

/-- Settles O53: every state of the busy run but its last is busy, and the last is in phase `DONE`. -/
theorem transformIsBusyUntilDone : Obligations.TransformIsBusyUntilDone := by
  intro s p ps hb hd hhost hstart hp hps
  refine ⟨fun n h1 hn => ?_, ?_⟩
  · obtain ⟨last, hrun⟩ := busyRun_transform (d := p.inverse) s
    obtain ⟨k, rfl⟩ : ∃ k, n = k + 1 := ⟨n - 1, by omega⟩
    obtain ⟨t, hpart, ht⟩ := hrun.exists_of_lt hn
    have hps' : ∀ q ∈ ps.take k, q.undisturbing = true := fun q hq =>
      hps q ((List.take_subset_take_left ps (Nat.le_of_lt hn)) hq)
    have hnot : t.doneOut ≠ true := fun h => by simp [State.busy, doneOut_eq_true.1 h] at ht
    exact ⟨_, core_run_of_start hb hd hhost hstart hp hps' hpart, ht, Bool.eq_false_of_not_eq_true hnot⟩
  · obtain ⟨c, hdone, hrun⟩ := core_run_transform hb hd hhost hstart hp hps
    exact ⟨_, hrun, busy_eq_false.2 (.inr hdone), doneOut_eq_true.2 hdone⟩
end

section
/-! PROOFS. `reset` (R290, R291): the registers of the reset table leave the engine in `IDLE` with its outputs 0, and a
micro-step with `reset` asserted is `State.applyReset` whatever else is presented. -/

namespace Sys2Proof.Machine

theorem registersReset_reset : State.reset.registersReset := by simp [State.registersReset]

theorem registersReset_applyReset (s : State) : s.applyReset.registersReset := by simp [State.registersReset]

/-- The output rows of the reset table follow from its register rows. -/
theorem outputs_of_registersReset {s : State} (h : s.registersReset) :
    s.busy = false ∧ s.doneOut = false ∧ s.scaleOut = 0#4 := by
  obtain ⟨hscale, -, -, hphase, -⟩ := h
  have hdone : ¬ s.doneOut = true := fun hd => by simp [doneOut_eq_true.1 hd] at hphase
  exact ⟨busy_eq_false.2 (.inl hphase), Bool.eq_false_of_not_eq_true hdone, hscale⟩

theorem step_of_reset {s : State} (hr : s.pins.reset = true) : step s = .next s.applyReset.popInput :=
  step_eq_next.2 (.inl ⟨hr, rfl⟩)

end Sys2Proof.Machine

open Sys2Proof.Machine

/-- Settles O1: the registers of the table, the constant ROMs, and the outputs the registers determine. -/
theorem resetLeavesSpecValues : Obligations.ResetLeavesSpecValues :=
  ⟨registersReset_reset, reset_tw, reset_br, outputs_of_registersReset registersReset_reset⟩

/-- Settles O2: the step is `applyReset`, which writes registers only, and the inputs are used up. -/
theorem resetInputDominates : Obligations.ResetInputDominates := by
  intro s hr
  have hregs : s.applyReset.popInput.registersReset := registersReset_applyReset s
  obtain ⟨hbusy, hdone, hscale⟩ := outputs_of_registersReset hregs
  have hsamples : s.sameSamples s.applyReset.popInput := fun c k =>
    (readSample_popInput _ c k).trans (readSample_applyReset s c k)
  exact ⟨_, step_of_reset hr, hregs, hbusy, hdone, hscale, hsamples, ⟨rfl, rfl⟩, rfl, rfl, rfl⟩
end
